-- ==== Sys2Proof/Word.lean ====
section
/-! DEFINITION. The widths of the SBBF unit's values (00_scope.md R12, R15, R18; 30_encoding.md R81, R84). -/

namespace Sys2Proof

/-- One byte of memory (R50). -/
abbrev Byte := BitVec 8

/-- One 32-bit lane of a bucket or a vector register (R8: `LANE_BITS = 32`). -/
abbrev Lane := BitVec 32

/-- A 64-bit value: a register, an address, a hash, an operand field (R12, R24, R50). -/
abbrev Word64 := BitVec 64

/-- A 256-bit bucket value: eight lanes, lane `i` at bits `32i+31:32i` (R8, R18, R100). -/
abbrev Bucket := BitVec 256

/-- A command word, `OP ‖ A ‖ B` (R81). -/
abbrev CommandWord := BitVec 136

/-- A response word, `CODE ‖ DATA` (R84). -/
abbrev ResponseWord := BitVec 72

/-- Lane `i` of a vector of any width: bits `32i+31:32i` (R18). -/
def lane {w : Nat} (v : BitVec w) (i : Nat) : Lane := v.extractLsb' (32 * i) 32

end Sys2Proof
end

