-- ==== Sys2Proof/Config.lean ====
section
/-! DEFINITION. The implementation parameters of an instance (00_scope.md R9 to R11): fixed before the unit is used,
changed by no command. Every statement quantifies over them; only `Config.standard` fixes values. -/

namespace Sys2Proof

/-- The kernel backend, chosen once when the instance is built (R9, R31). -/
inductive Backend where
  /-- One 256-bit vector register per bucket. -/
  | v256
  /-- A pair of 128-bit vector registers per bucket. -/
  | v128p
deriving DecidableEq, Repr

/-- The build parameters of one instance: `BACKEND` (R9), `SALT` (R10) and `MEM_BYTES` (R11). -/
structure Config where
  /-- `BACKEND` (R9). -/
  backend : Backend
  /-- `SALT[0]` to `SALT[7]`, index 0 first (R10). -/
  salt : Vector Lane 8
  /-- `MEM_BYTES`: the addresses `0` to `MEM_BYTES - 1` are backed and no other (R11). -/
  memBytes : Nat
deriving DecidableEq, Repr

/-- `SALT[i]`, the salt of lane `i`, for `i` in 0 to 7 (R10, R114). -/
def Config.saltLane (c : Config) (i : Nat) : Lane := c.salt.toList.getD i 0

/-- What R10 and R11 ask of the parameters: the eight salts are pairwise distinct and odd, and `MEM_BYTES` is a
positive multiple of 64, at most `2^64`. -/
abbrev Config.Valid (c : Config) : Prop :=
  (∀ i, i < 8 → ∀ j, j < i → c.saltLane j ≠ c.saltLane i) ∧ (∀ i, i < 8 → (c.saltLane i).toNat % 2 = 1) ∧
    0 < c.memBytes ∧ c.memBytes % 64 = 0 ∧ c.memBytes ≤ 2 ^ 64

/-- The default `SALT` of R10, index 0 first. PRESUMED (log entry 2): the spec marks the eight values as general
knowledge. Unsafe for a claim that rests on the values; every statement quantifies over `SALT`. -/
def defaultSalt : Vector Lane 8 :=
  #v[0x47b6137b, 0x44974d91, 0x8824ad5b, 0xa2b7289d, 0x705495c7, 0x2df1424b, 0x9efc4947, 0x5c6bfb31]

/-- The instance `State.reset` starts from: backend `V256`, the default salts, and every 64-bit address backed.
DESIGN CHOICE (log entries 1 and 3): the spec leaves `BACKEND` and `MEM_BYTES` to the builder. Unsafe for a claim that
rests on these values; every statement quantifies over the configuration. -/
def Config.standard : Config := { backend := .v256, salt := defaultSalt, memBytes := 2 ^ 64 }

/-- An unlisted address of the model's memory reads as this byte. DESIGN CHOICE (log entry 4): the spec leaves every
byte of `MEM` unspecified before the unit has written it (R38). Unsafe for a claim about memory the unit never
wrote; the unit itself reads no such byte (R57). -/
def unlistedByte : Byte := 0

end Sys2Proof
end

