-- ==== Sys2Proof/Syntax.lean ====
section
/-! DEFINITION. The five commands (00_scope.md R2, 30_encoding.md R82, R86): one constructor per row of the opcode
table, operands at the widths of R82. -/

namespace Sys2Proof

/-- A command. There is no command for `remove`, `resize`, `merge`, `serialize`, `clear`, for a duplicate, or for a
kernel on a raw buffer (R6, R86, R153). -/
inductive Instr where
  /-- `NEW bits_per_key, expected_keys, base` (R141). -/
  | new (bitsPerKey expectedKeys : BitVec 32) (base : Word64)
  /-- `INSERT hash` (R146). -/
  | insert (hash : Word64)
  /-- `CONTAINS hash` (R148). -/
  | contains (hash : Word64)
  /-- `RELEASE` (R150). -/
  | release
  /-- `RDCSR csr`: `csr` is a register number, 0 to 4 (R152; checked by `wellFormed`). -/
  | rdcsr (csr : Word64)
deriving DecidableEq, Repr

end Sys2Proof
end

