-- ==== Sys2Proof/WellFormed.lean ====
section
/-! DEFINITION. Which commands have an encoding (30_encoding.md R88): every operand value is legal but for a register
number above 4. -/

namespace Sys2Proof

/-- A command is well formed when its operands are legal (R88 (d): `RDCSR` needs `A <= 4`; every value of every other
operand is legal). -/
def wellFormed : Instr → Bool
  | .new _ _ _ => true
  | .insert _ => true
  | .contains _ => true
  | .release => true
  | .rdcsr csr => decide (csr ≤ 4)

end Sys2Proof
end

