-- ==== Sys2Proof/Decode.lean ====
section
/-! DEFINITION. Decoding of the 136-bit command word, total, with the illegal words rejected by name, and the encoder
(30_encoding.md R81 to R92). -/

namespace Sys2Proof

/-- Why a command word is illegal (R88). Such a word is answered `ERR_ILLEGAL`; this is no stop of the machine. -/
inductive DecodeError where
  /-- R88 (a): `OP` is `0x00` or above `0x05`. -/
  | unknownOpcode (op : BitVec 8)
  /-- R88 (b), (c), (d): a reserved operand field is not zero. -/
  | reservedNotZero
  /-- R88 (d): `RDCSR` of a number above 4. -/
  | noSuchRegister (csr : Word64)
deriving DecidableEq, Repr

/-- The field `OP`, bits 135:128 (R81). -/
def opField (w : CommandWord) : BitVec 8 := w.extractLsb' 128 8

/-- The field `A`, bits 127:64 (R81). -/
def aField (w : CommandWord) : Word64 := w.extractLsb' 64 64

/-- The field `B`, bits 63:0 (R81). -/
def bField (w : CommandWord) : Word64 := w.extractLsb' 0 64

/-- `Encode(op, a, b)`, the word `op ‖ a ‖ b` (R81, R83). -/
def commandWord (op : BitVec 8) (a b : Word64) : CommandWord := op ++ a ++ b

/-- `Decode(w)`: the one legal command a word is, or the reason it is illegal (R82, R83, R86, R88). -/
def decode (w : CommandWord) : Except DecodeError Instr :=
  let a := aField w
  let b := bField w
  if opField w = 0x01 then .ok (.new (a.extractLsb' 32 32) (a.extractLsb' 0 32) b)
  else if opField w = 0x02 then
    if b = 0 then .ok (.insert a) else .error .reservedNotZero
  else if opField w = 0x03 then
    if b = 0 then .ok (.contains a) else .error .reservedNotZero
  else if opField w = 0x04 then
    if a = 0 ∧ b = 0 then .ok .release else .error .reservedNotZero
  else if opField w = 0x05 then
    if b ≠ 0 then .error .reservedNotZero
    else if a ≤ 4 then .ok (.rdcsr a) else .error (.noSuchRegister a)
  else .error (.unknownOpcode (opField w))

/-- The opcode of a command (R86). -/
def opcode : Instr → BitVec 8
  | .new _ _ _ => 0x01
  | .insert _ => 0x02
  | .contains _ => 0x03
  | .release => 0x04
  | .rdcsr _ => 0x05

/-- The command word of a well-formed command (R82, R83). -/
def encode (i : Instr) : CommandWord :=
  match i with
  | .new bitsPerKey expectedKeys base => commandWord (opcode i) (bitsPerKey ++ expectedKeys) base
  | .insert hash => commandWord (opcode i) hash 0
  | .contains hash => commandWord (opcode i) hash 0
  | .release => commandWord (opcode i) 0 0
  | .rdcsr csr => commandWord (opcode i) csr 0

/-- One row of the machine-readable opcode table (R92). -/
structure TableRow where
  mnemonic : String
  matchBits : CommandWord
  maskBits : CommandWord
deriving DecidableEq, Repr

/-- `opcode_table.json`: a word `w` selects a row iff `(w AND mask) == match` (R92). -/
def opcodeTable : List TableRow :=
  [ { mnemonic := "NEW"
      matchBits := 0x0100000000000000000000000000000000
      maskBits := 0xFF00000000000000000000000000000000 },
    { mnemonic := "INSERT"
      matchBits := 0x0200000000000000000000000000000000
      maskBits := 0xFF0000000000000000FFFFFFFFFFFFFFFF },
    { mnemonic := "CONTAINS"
      matchBits := 0x0300000000000000000000000000000000
      maskBits := 0xFF0000000000000000FFFFFFFFFFFFFFFF },
    { mnemonic := "RELEASE"
      matchBits := 0x0400000000000000000000000000000000
      maskBits := 0xFFFFFFFFFFFFFFFFFFFFFFFFFFFFFFFFFF },
    { mnemonic := "RDCSR"
      matchBits := 0x0500000000000000000000000000000000
      maskBits := 0xFFFFFFFFFFFFFFFFF8FFFFFFFFFFFFFFFF } ]

/-- A word selects a row (R92). -/
abbrev TableRow.selects (r : TableRow) (w : CommandWord) : Prop := w &&& r.maskBits = r.matchBits

/-- The mnemonic of a command, as the opcode table spells it. -/
def mnemonic : Instr → String
  | .new _ _ _ => "NEW"
  | .insert _ => "INSERT"
  | .contains _ => "CONTAINS"
  | .release => "RELEASE"
  | .rdcsr _ => "RDCSR"

/-- The textual form of a command, one a line, numbers in decimal (R90). -/
def assembly : Instr → String
  | .new bitsPerKey expectedKeys base =>
    "new " ++ Nat.repr bitsPerKey.toNat ++ ", " ++ Nat.repr expectedKeys.toNat ++ ", " ++ Nat.repr base.toNat
  | .insert hash => "insert " ++ Nat.repr hash.toNat
  | .contains hash => "contains " ++ Nat.repr hash.toNat
  | .release => "release"
  | .rdcsr csr => "rdcsr " ++ Nat.repr csr.toNat

/-- The command word whose low `nbits` bits are those of `w` and whose other bits are 0. The port carries the word
whole, so no byte order arises (R83). -/
def tableCommandWord (nbits w : Nat) : CommandWord := BitVec.ofNat 136 (w % 2 ^ nbits)

/-- The command the decoder reads from a word numbered as `opcode_table.json` numbers its bits. -/
def decodeTableWord (nbits w : Nat) : Option Instr := (decode (tableCommandWord nbits w)).toOption

end Sys2Proof
end

