-- ==== Sys2Proof/Machine/State.lean ====
section
/-! DEFINITION. The state of one SBBF unit, the ports' contents and the state after reset (10_state.md). -/

namespace Sys2Proof.Machine

/-- The unit state `STATE` (R23, R30). -/
inductive UnitState where
  /-- No filter exists in the unit. -/
  | empty
  /-- Exactly one filter exists. -/
  | live
  /-- A `NEW` met the fatal error class; the unit is dead until reset. -/
  | fault
deriving DecidableEq, Repr

/-- The outcome codes of a response; no other is ever produced (R85). -/
inductive Code where
  | ok
  | errIllegal
  | errState
  | errGeometry
  | fatal
deriving DecidableEq, Repr

/-- A response, `CODE ‖ DATA` (R84); `Response.word` gives its 72 bits. -/
structure Response where
  code : Code
  data : Word64
deriving DecidableEq, Repr

/-- What an agent outside the unit does between two commands (R13, R80, R184): the inputs of the model. -/
inductive HostAction where
  /-- A word is presented on the command port (R80 (a)). -/
  | present (w : CommandWord)
  /-- The reset input is asserted (R80 (d), R180). -/
  | assertReset
  /-- The host, or another agent with access to `MEM`, writes one byte (R64, R184). -/
  | writeByte (addr : Word64) (value : Byte)
  /-- The host, or another agent with access to `MEM`, reads one byte (R64, R184). -/
  | readByte (addr : Word64)
deriving DecidableEq, Repr

/-- What the unit does on its memory port, at the widths of R59. -/
inductive MemEvent where
  /-- One read of `bytes` bytes at `addr`. -/
  | read (addr bytes : Nat)
  /-- One write of `bytes` bytes at `addr`. -/
  | write (addr bytes : Nat)
  /-- Two 16-byte reads, at `addr` and `addr + 16`; their order is open (R59, R130, U5), so none is recorded. -/
  | readHalves (addr : Nat)
  /-- Two 16-byte writes, at `addr` and `addr + 16`; their order is open (R59, R131, U5), so none is recorded. -/
  | writeHalves (addr : Nat)
  /-- `NEW`'s writes of zero to the `bytes` bytes at `addr`; widths and order are open (R59, U6). -/
  | zeroFill (addr bytes : Nat)
deriving DecidableEq, Repr

/-- `MEM`, as (address, byte) pairs in canonical form (`Memory.wf`); an unlisted address reads as `unlistedByte`. -/
abbrev Memory := List Host.Cell

/-- The canonical form: addresses strictly rising, no entry equal to what an unlisted address reads as. -/
abbrev Memory.wf (m : Memory) : Prop :=
  m.Pairwise (fun x y => x.1 < y.1) ∧ ∀ x ∈ m, x.2 ≠ unlistedByte

/-- Reasons a step stops the machine where the spec says the access has no result. -/
inductive Fault where
  /-- An agent outside the unit touches an address at or above `MEM_BYTES`, which is backed by no storage (R50).
  Raised by `hostWrite` and `hostRead` alone, by no command. Safe: the spec gives such an access no result. -/
  | unbackedAddress
deriving DecidableEq, Repr

/-- Reasons a step is refused: the spec gives the case no meaning. -/
inductive Refusal where
  /-- An instruction that has no meaning in the model yet; raised by `exec`'s arm. Safe. No arm raises it. -/
  | notModelled (mnemonic : String)
  /-- A kernel would run on a buffer that is misaligned, not backed or empty (R58, R120, U1: "refuse"). Raised by
  `INSERT` and `CONTAINS` in states that no run reaches (R168). Safe. -/
  | kernelPrecondition
  /-- An agent outside the unit touches a byte of a live buffer: such a run has no meaning (R64, R185, U3: "refuse").
  Raised by `hostWrite` and `hostRead`. Safe. -/
  | liveBufferTouched
deriving DecidableEq, Repr

/-- The state. `unit` to `mem` are the spec's (R20); `ALIGN` is hardwired and `STATUS` is a view (R28, R29), both in
`readCsr`. The other four fields are the model's own: the build parameters carried with the state (log entry 1) and the
three ports' contents (log entries 5 to 7). -/
structure State where
  /-- The build parameters (R36); no step changes them. -/
  config : Config
  /-- `STATE` (R23), which `STATUS.LIVE` and `STATUS.FAULT` report (R30). -/
  unit : UnitState
  /-- `BASE`, register 0 (R25). -/
  base : Word64
  /-- `BYTE_LENGTH`, register 1 (R26). -/
  byteLength : Word64
  /-- `BUCKET_COUNT`, bits 31:0 of register 2; bits 63:32 read 0 (R27). -/
  bucketCount : BitVec 32
  /-- `HIT`, bit 2 of `STATUS` (R32). -/
  hit : Bool
  /-- `MEM` (R35, R50). -/
  mem : Memory
  /-- What the host does next, first action first (R13, R183). -/
  hostActions : List HostAction
  /-- The response port: every response so far, oldest first (R80 (b), R183). -/
  responses : List Response
  /-- The memory port: every access of the unit so far, oldest first (R59, R80 (c)). -/
  memPort : List MemEvent
deriving DecidableEq, Repr

/-- The state right after reset of the instance built with `c`, every port empty (R38). -/
def State.resetOf (c : Config) : State :=
  { config := c
    unit := .empty
    base := 0
    byteLength := 0
    bucketCount := 0
    hit := false
    mem := []
    hostActions := []
    responses := []
    memPort := [] }

/-- The machine right after reset (R38), for the instance `Config.standard`. -/
def State.reset : State := State.resetOf Config.standard

end Sys2Proof.Machine
end

