-- ==== Sys2Proof/Machine/Ops.lean ====
section
/-! DEFINITION. The named operations over memory, registers and ports, answering a command with an error, entering
`FAULT`, and reset (20_memory.md, 60_exceptions.md, 70_reset_and_hazards.md). -/

namespace Sys2Proof.Machine

/-! ## Memory -/

/-- The byte at an address. -/
def Memory.peek : Memory → Nat → Byte
  | [], _ => unlistedByte
  | (b, w) :: rest, a => if b = a then w else Memory.peek rest a

/-- Memory with one byte stored, in canonical form again. -/
def Memory.poke : Memory → Nat → Byte → Memory
  | [], a, v => if v = unlistedByte then [] else [(a, v)]
  | (b, w) :: rest, a, v =>
    if b < a then (b, w) :: Memory.poke rest a v
    else if b = a then if v = unlistedByte then rest else (a, v) :: rest
    else if v = unlistedByte then (b, w) :: rest else (a, v) :: (b, w) :: rest

/-- The `n` bytes at `addr` as one `w`-bit number, the byte at `addr` in bits 7:0 (R53, R54). -/
def Memory.load (w : Nat) (m : Memory) (addr : Nat) : Nat → BitVec w
  | 0 => 0
  | n + 1 => Memory.load w m addr n ||| ((m.peek (addr + n)).setWidth w <<< (8 * n))

/-- Byte `j` of a value, `(v >> 8j) mod 256` (R53). -/
def byteOf {w : Nat} (v : BitVec w) (j : Nat) : Byte := v.extractLsb' (8 * j) 8

/-- Memory with the low `n` bytes of `v` stored at `addr`, least significant byte first (R53, R54). -/
def Memory.store {w : Nat} (m : Memory) (addr : Nat) (v : BitVec w) : Nat → Memory
  | 0 => m
  | n + 1 => (Memory.store m addr v n).poke (addr + n) (byteOf v n)

/-- `MemRead(addr, w/8)`: no result where a byte is not backed (R53). -/
def memRead (w : Nat) (c : Config) (m : Memory) (addr : Nat) : Option (BitVec w) :=
  if addr + w / 8 ≤ c.memBytes then some (m.load w addr (w / 8)) else none

/-- `MemWrite(addr, w/8, v)`: no result where a byte is not backed (R53). -/
def memWrite {w : Nat} (c : Config) (m : Memory) (addr : Nat) (v : BitVec w) : Option Memory :=
  if addr + w / 8 ≤ c.memBytes then some (m.store addr v (w / 8)) else none

/-- `NEW`'s zero-fill as one block write (R59, R145): an address that is not listed reads 0. -/
def Memory.zeroFill (m : Memory) (addr bytes : Nat) : Memory :=
  m.filter fun x => decide (x.1 < addr ∨ addr + bytes ≤ x.1)

/-- The other admissible form of the zero-fill: `lines` writes of 64 zero bytes in ascending order (R59, R145). -/
def Memory.zeroFillByLines (m : Memory) (addr : Nat) : Nat → Memory
  | 0 => m
  | lines + 1 => (Memory.zeroFillByLines m addr lines).store (addr + 64 * lines) (0 : BitVec 512) 64

/-! ## The response port -/

/-- The bits of an outcome code (R85). -/
def Code.bits : Code → BitVec 8
  | .ok => 0x00
  | .errIllegal => 0x01
  | .errState => 0x02
  | .errGeometry => 0x03
  | .fatal => 0xFF

/-- The 72-bit response word, `CODE ‖ DATA` (R84). -/
def Response.word (r : Response) : ResponseWord := r.code.bits ++ r.data

/-- `respond(code, data)`: one response on the response port (R17). A refusal of a command is this alone: it changes
no register and no memory (R170). -/
def respond (s : State) (code : Code) (data : Word64) : State :=
  { s with responses := s.responses ++ [{ code := code, data := data }] }

/-! ## The unit's exceptions: `FAULT`, the state checks, and reset, the only way back -/

/-- `raise Fatal`: `STATUS.FAULT <- 1`, nothing else changes, and the response is `FATAL` (R17, R144, R165). -/
def raiseFatal (s : State) (data : Word64) : State :=
  respond { s with unit := .fault } .fatal data

/-- Lines 3 to 5 of the step function (R140): `FATAL` in `FAULT` (R166), `ERR_STATE` in a state the command is not
legal in (R163), else the command is performed. -/
def performIn (legal : UnitState) (s : State) (perform : Host.Outcome State Fault Refusal) :
    Host.Outcome State Fault Refusal :=
  if s.unit = .fault then .next (respond s .fatal 0)
  else if s.unit ≠ legal then .next (respond s .errState 0)
  else perform

/-- Reset: every register at its reset value, memory neither read nor written (R38, R180, R181). The host's remaining
actions and the ports' histories are not the unit's to change. -/
def resetUnit (s : State) : State :=
  { s with unit := .empty, base := 0, byteLength := 0, bucketCount := 0, hit := false }

/-! ## The filter's registers -/

/-- `NEW`'s register writes: the filter's geometry, `LIVE` set, `HIT` cleared (R145). -/
def openFilter (s : State) (base : Word64) (byteLength bucketCount : Nat) : State :=
  { s with
    unit := .live
    base := base
    byteLength := BitVec.ofNat 64 byteLength
    bucketCount := BitVec.ofNat 32 bucketCount
    hit := false }

/-- `RELEASE`'s register writes: the geometry, `LIVE` and `HIT` cleared, memory untouched (R150). -/
def closeFilter (s : State) : State :=
  { s with unit := .empty, base := 0, byteLength := 0, bucketCount := 0, hit := false }

/-- The unit's accesses reach memory and are recorded on the memory port. -/
def accessMemory (s : State) (m : Memory) (events : List MemEvent) : State :=
  { s with mem := m, memPort := s.memPort ++ events }

/-! ## The other agents' accesses -/

/-- A byte of the live filter's buffer, `[BASE, BASE + BYTE_LENGTH)` while `STATE = LIVE` (R35, R64). -/
abbrev State.inLiveBuffer (s : State) (a : Nat) : Prop :=
  s.unit = .live ∧ s.base.toNat ≤ a ∧ a < s.base.toNat + s.byteLength.toNat

/-- Another agent writes a byte: memory only, never a live buffer's (R64, R184, R185). -/
def hostWrite (addr : Word64) (value : Byte) (s : State) : Host.Outcome State Fault Refusal :=
  if s.config.memBytes ≤ addr.toNat then .fault .unbackedAddress
  else if s.inLiveBuffer addr.toNat then .refused .liveBufferTouched
  else .next { s with mem := s.mem.poke addr.toNat value }

/-- Another agent reads a byte: no side effect (R62), never a live buffer's (R64, R184, R185). -/
def hostRead (addr : Word64) (s : State) : Host.Outcome State Fault Refusal :=
  if s.config.memBytes ≤ addr.toNat then .fault .unbackedAddress
  else if s.inLiveBuffer addr.toNat then .refused .liveBufferTouched
  else .next s

end Sys2Proof.Machine
end

