-- ==== Sys2Proof/Machine/Operands.lean ====
section
/-! DEFINITION. What the commands compute from their operands: the sizing rule, the allocation check, the bucket index
and the mask (00_scope.md R16, 40_bucket_layout_sizing.md, 41_index_mask.md, 43_filter_commands.md R143). -/

namespace Sys2Proof.Machine

/-- The low 32 bits of the unsigned product (R16). -/
def mul32lo (a b : Lane) : Lane := a * b

/-- The exact 64-bit unsigned product of two 32-bit numbers (R16). -/
def mul32wide (a b : Lane) : Word64 := a.setWidth 64 * b.setWidth 64

/-! ## The sizing rule -/

/-- `raw_bytes` (R102): multiply first, then divide by 8. -/
def rawBytes (bitsPerKey expectedKeys : BitVec 32) : Nat := bitsPerKey.toNat * expectedKeys.toNat / 8

/-- `byte_length` for a `raw_bytes`: the nearest multiple of 64, a tie going up (R102, R104). -/
def roundToLine (raw : Nat) : Nat := (raw + 32) / 64 * 64

/-- `byte_length` of `Geometry` (R102). -/
def geometryBytes (bitsPerKey expectedKeys : BitVec 32) : Nat := roundToLine (rawBytes bitsPerKey expectedKeys)

/-- `bucket_count` of `Geometry` for a `byte_length` (R102). -/
def bucketsIn (byteLength : Nat) : Nat := byteLength / 32

/-- `GeometryOK` (R105). -/
abbrev geometryOK (byteLength : Nat) : Prop := 64 ≤ byteLength ∧ byteLength < 2 ^ 37

/-- `AllocOK`, in unbounded integers (R143). -/
abbrev allocOK (c : Config) (base : Word64) (byteLength : Nat) : Prop :=
  base.toNat % 64 = 0 ∧ base.toNat + byteLength ≤ c.memBytes

/-! ## The bucket index -/

/-- `hi`, bits 63:32 of a hash (R110). -/
def hashHi (h : Word64) : Lane := h.extractLsb' 32 32

/-- `lo`, bits 31:0 of a hash (R110). -/
def hashLo (h : Word64) : Lane := h.extractLsb' 0 32

/-- `BucketIndex`: the high 32 bits of the 64-bit product of `hi` and the bucket count (R111). -/
def bucketIndex (h : Word64) (bucketCount : BitVec 32) : BitVec 32 :=
  (mul32wide (hashHi h) bucketCount >>> 32).extractLsb' 0 32

/-- `BucketAddr(b)`, the address of bucket `b` (R52). -/
def bucketAddr (base : Word64) (b : BitVec 32) : Nat := base.toNat + 32 * b.toNat

/-! ## The mask -/

/-- `acc[i]` of `MaskExp`: the top five bits of the low 32 bits of `SALT[i] * lo` (R114). -/
def maskExp (c : Config) (h : Word64) (i : Nat) : BitVec 5 :=
  (mul32lo (c.saltLane i) (hashLo h) >>> 27).extractLsb' 0 5

/-- `lane_i` of `Mask`: the one bit the exponent names (R115). -/
def maskLane (c : Config) (h : Word64) (i : Nat) : Lane := 1#32 <<< (maskExp c h i).toNat

/-- `Mask(h) = lane_7 ‖ ... ‖ lane_0` (R115). -/
def mask (c : Config) (h : Word64) : Bucket :=
  maskLane c h 7 ++ maskLane c h 6 ++ maskLane c h 5 ++ maskLane c h 4 ++
    maskLane c h 3 ++ maskLane c h 2 ++ maskLane c h 1 ++ maskLane c h 0

end Sys2Proof.Machine
end

