-- ==== Sys2Proof/Machine/Flags.lean ====
section
/-! DEFINITION. The flag `HIT`, the `STATUS` register and the register file as `RDCSR` reads it (10_state.md R24 to
R32). -/

namespace Sys2Proof.Machine

/-- A boolean as response data: bit 0, bits 63:1 zero (R87). -/
def boolData (b : Bool) : Word64 := if b then 1 else 0

/-- `BACKEND_ID`: 0 for `V256`, 1 for `V128P` (R29, R31). -/
def backendId : Backend → BitVec 2
  | .v256 => 0
  | .v128p => 1

/-- The `STATUS` register: `BACKEND` in bits 9:8, `HIT`, `FAULT`, `LIVE` in bits 2, 1, 0, every other bit 0 (R29). -/
def statusWord (s : State) : Word64 :=
  (0 : BitVec 54) ++ backendId s.config.backend ++ (0 : BitVec 5) ++ BitVec.ofBool s.hit ++
    BitVec.ofBool (decide (s.unit = .fault)) ++ BitVec.ofBool (decide (s.unit = .live))

/-- A register of the register file (R24). -/
inductive Csr where
  | base
  | byteLength
  | bucketCount
  | align
  | status
deriving DecidableEq, Repr

/-- The register a number names; numbers 5 and above name none (R24). -/
def csrOfNumber (n : Word64) : Option Csr :=
  if n = 0 then some .base
  else if n = 1 then some .byteLength
  else if n = 2 then some .bucketCount
  else if n = 3 then some .align
  else if n = 4 then some .status
  else none

/-- `csr[r]` (R17, R24): bits 63:32 of `BUCKET_COUNT` read 0 (R27), `ALIGN` always reads 64 (R28). -/
def readCsr (s : State) : Csr → Word64
  | .base => s.base
  | .byteLength => s.byteLength
  | .bucketCount => s.bucketCount.setWidth 64
  | .align => 64
  | .status => statusWord s

/-- `HIT` takes a kernel's boolean, which goes out in the response too (R32, R132, R146, R148). -/
def reportStatus (s : State) (status : Bool) : State :=
  respond { s with hit := status } .ok (boolData status)

end Sys2Proof.Machine
end

