-- ==== Sys2Proof/Machine/Kernels.lean ====
section
/-! DEFINITION. The kernel contract, the lane-wise vector operations and the two backends (42_kernel_backends.md). -/

namespace Sys2Proof.Machine

/-- What a kernel answers: its status bit, memory after it, and its accesses on the memory port. -/
structure KernelResult where
  status : Bool
  mem : Memory
  events : List MemEvent
deriving DecidableEq, Repr

/-- The precondition of every kernel: the buffer `[base, base + 32 * bucket_count)` is backed, `base` is a multiple of
64, and `bucket_count >= 1` (R120). -/
abbrev kernelPre (c : Config) (base : Word64) (bucketCount : BitVec 32) : Prop :=
  base.toNat % 64 = 0 ∧ base.toNat + 32 * bucketCount.toNat ≤ c.memBytes ∧ 1 ≤ bucketCount.toNat

/-! ## The reference semantics -/

/-- `KernelInsert`, the contract: no meaning without the precondition (R58, R121). -/
def kernelInsertRef (c : Config) (m : Memory) (base : Word64) (bucketCount : BitVec 32) (h : Word64) :
    Option (Bool × Memory) :=
  if kernelPre c base bucketCount then do
    let addr := bucketAddr base (bucketIndex h bucketCount)
    let bucket ← memRead 256 c m addr
    let m' ← memWrite c m addr (bucket ||| mask c h)
    some (bucket &&& mask c h == mask c h, m')
  else none

/-- `KernelContains`, the contract: no meaning without the precondition (R58, R122). -/
def kernelContainsRef (c : Config) (m : Memory) (base : Word64) (bucketCount : BitVec 32) (h : Word64) :
    Option Bool :=
  if kernelPre c base bucketCount then do
    let bucket ← memRead 256 c m (bucketAddr base (bucketIndex h bucketCount))
    some (bucket &&& mask c h == mask c h)
  else none

/-! ## Lane-wise vector operations (R125) -/

/-- The lanes `f 0`, `f 1`, ... of the first `n` lanes of a `w`-bit vector, lane `i` at bits `32i+31:32i` (R18). -/
def joinLanes (w : Nat) (f : Nat → Lane) : Nat → BitVec w
  | 0 => 0
  | n + 1 => joinLanes w f n ||| ((f n).setWidth w <<< (32 * n))

/-- The `w`-bit vector whose lane `i` is `f i`, for each of its `w / 32` lanes. -/
def lanewise (w : Nat) (f : Nat → Lane) : BitVec w := joinLanes w f (w / 32)

/-- `vsplat32_W(x)` (R125). -/
def vsplat32 (w : Nat) (x : Lane) : BitVec w := lanewise w fun _ => x

/-- `vmullo32_W(a, b)` (R125). -/
def vmullo32 {w : Nat} (a b : BitVec w) : BitVec w := lanewise w fun i => mul32lo (lane a i) (lane b i)

/-- `vsrl32_W(a, n)` (R125). -/
def vsrl32 {w : Nat} (a : BitVec w) (n : Nat) : BitVec w := lanewise w fun i => lane a i >>> n

/-- `vsllv32_W(a, c)` (R125). -/
def vsllv32 {w : Nat} (a c : BitVec w) : BitVec w := lanewise w fun i => lane a i <<< (lane c i).toNat

/-- `vand_W(a, b)` (R125). -/
def vand {w : Nat} (a b : BitVec w) : BitVec w := lanewise w fun i => lane a i &&& lane b i

/-- `vor_W(a, b)` (R125). -/
def vor {w : Nat} (a b : BitVec w) : BitVec w := lanewise w fun i => lane a i ||| lane b i

/-- `vtestc_W(a, m)`: 1 iff `((NOT a_i) AND m_i) == 0` for every lane (R125). -/
def vtestc {w : Nat} (a m : BitVec w) : Bool :=
  (List.range (w / 32)).all fun i => ~~~(lane a i) &&& lane m i == 0

/-- `vload_W(addr)`, `addr` a multiple of `W/8` (R125). -/
def vload (w : Nat) (c : Config) (m : Memory) (addr : Nat) : Option (BitVec w) :=
  if addr % (w / 8) = 0 then memRead w c m addr else none

/-- `vstore_W(addr, v)`, `addr` a multiple of `W/8` (R125). -/
def vstore {w : Nat} (c : Config) (m : Memory) (addr : Nat) (v : BitVec w) : Option Memory :=
  if addr % (w / 8) = 0 then memWrite c m addr v else none

/-- `SALT256 = SALT[7] ‖ ... ‖ SALT[0]` (R125). -/
def salt256 (c : Config) : BitVec 256 :=
  c.saltLane 7 ++ c.saltLane 6 ++ c.saltLane 5 ++ c.saltLane 4 ++
    c.saltLane 3 ++ c.saltLane 2 ++ c.saltLane 1 ++ c.saltLane 0

/-- `SALT_LO = SALT[3] ‖ SALT[2] ‖ SALT[1] ‖ SALT[0]` (R125). -/
def saltLo (c : Config) : BitVec 128 := c.saltLane 3 ++ c.saltLane 2 ++ c.saltLane 1 ++ c.saltLane 0

/-- `SALT_HI = SALT[7] ‖ SALT[6] ‖ SALT[5] ‖ SALT[4]` (R125). -/
def saltHi (c : Config) : BitVec 128 := c.saltLane 7 ++ c.saltLane 6 ++ c.saltLane 5 ++ c.saltLane 4

/-- Mask generation from a register of salts: `vsllv32(ONES, vsrl32(vmullo32(salts, vsplat32(lo)), 27))` (R126,
R129). -/
def maskRegister {w : Nat} (salts : BitVec w) (h : Word64) : BitVec w :=
  vsllv32 (vsplat32 w 1#32) (vsrl32 (vmullo32 salts (vsplat32 w (hashLo h))) 27)

/-! ## Backend `V256`: one 256-bit register per bucket -/

/-- `KernelContains`, `V256` (R127): one 32-byte read. -/
def kernelContainsV256 (c : Config) (m : Memory) (base : Word64) (bucketCount : BitVec 32) (h : Word64) :
    Option KernelResult :=
  if kernelPre c base bucketCount then do
    let addr := bucketAddr base (bucketIndex h bucketCount)
    let vb ← vload 256 c m addr
    some { status := vtestc vb (maskRegister (salt256 c) h), mem := m, events := [.read addr 32] }
  else none

/-- `KernelInsert`, `V256` (R128): one 32-byte read, then one 32-byte write, unconditional (R60). -/
def kernelInsertV256 (c : Config) (m : Memory) (base : Word64) (bucketCount : BitVec 32) (h : Word64) :
    Option KernelResult :=
  if kernelPre c base bucketCount then do
    let addr := bucketAddr base (bucketIndex h bucketCount)
    let vm := maskRegister (salt256 c) h
    let vb ← vload 256 c m addr
    let m' ← vstore c m addr (vor vb vm)
    some { status := vtestc vb vm, mem := m', events := [.read addr 32, .write addr 32] }
  else none

/-! ## Backend `V128P`: a pair of 128-bit registers per bucket -/

/-- `KernelContains`, `V128P` (R130): two 16-byte reads. -/
def kernelContainsV128P (c : Config) (m : Memory) (base : Word64) (bucketCount : BitVec 32) (h : Word64) :
    Option KernelResult :=
  if kernelPre c base bucketCount then do
    let addr := bucketAddr base (bucketIndex h bucketCount)
    let vbLo ← vload 128 c m addr
    let vbHi ← vload 128 c m (addr + 16)
    some
      { status := vtestc vbLo (maskRegister (saltLo c) h) && vtestc vbHi (maskRegister (saltHi c) h)
        mem := m
        events := [.readHalves addr] }
  else none

/-- `KernelInsert`, `V128P` (R131): two 16-byte reads, then two 16-byte writes, unconditional (R60). -/
def kernelInsertV128P (c : Config) (m : Memory) (base : Word64) (bucketCount : BitVec 32) (h : Word64) :
    Option KernelResult :=
  if kernelPre c base bucketCount then do
    let addr := bucketAddr base (bucketIndex h bucketCount)
    let vmLo := maskRegister (saltLo c) h
    let vmHi := maskRegister (saltHi c) h
    let vbLo ← vload 128 c m addr
    let vbHi ← vload 128 c m (addr + 16)
    let m1 ← vstore c m addr (vor vbLo vmLo)
    let m2 ← vstore c m1 (addr + 16) (vor vbHi vmHi)
    some
      { status := vtestc vbLo vmLo && vtestc vbHi vmHi
        mem := m2
        events := [.readHalves addr, .writeHalves addr] }
  else none

/-! ## The selected backend (R136) -/

/-- `KernelInsert` of the instance's backend. -/
def kernelInsert (c : Config) (m : Memory) (base : Word64) (bucketCount : BitVec 32) (h : Word64) :
    Option KernelResult :=
  match c.backend with
  | .v256 => kernelInsertV256 c m base bucketCount h
  | .v128p => kernelInsertV128P c m base bucketCount h

/-- `KernelContains` of the instance's backend. -/
def kernelContains (c : Config) (m : Memory) (base : Word64) (bucketCount : BitVec 32) (h : Word64) :
    Option KernelResult :=
  match c.backend with
  | .v256 => kernelContainsV256 c m base bucketCount h
  | .v128p => kernelContainsV128P c m base bucketCount h

end Sys2Proof.Machine
end

