-- ==== Sys2Proof/Machine/Filter.lean ====
section
/-! DEFINITION. The filter's life: `NEW`, `INSERT`, `CONTAINS`, `RELEASE` (43_filter_commands.md R141 to R151). Each is
lines 3 to 5 of the step function (R140) for its command. -/

namespace Sys2Proof.Machine

/-- `NEW` (R141 to R145): an unusable geometry is refused, an unusable region is fatal, else the buffer is zero-filled
and the filter made. -/
def execNew (bitsPerKey expectedKeys : BitVec 32) (base : Word64) (s : State) : Host.Outcome State Fault Refusal :=
  let byteLength := geometryBytes bitsPerKey expectedKeys
  let data := BitVec.ofNat 64 byteLength
  performIn .empty s
    (if ¬ geometryOK byteLength then .next (respond s .errGeometry data)
     else if ¬ allocOK s.config base byteLength then .next (raiseFatal s data)
     else
       let filled :=
         accessMemory s (s.mem.zeroFill base.toNat byteLength) [.zeroFill base.toNat byteLength]
       .next (respond (openFilter filled base byteLength (bucketsIn byteLength)) .ok data))

/-- `INSERT` (R146): the kernel's store and status; refused where the kernel has no meaning (R58). -/
def execInsert (hash : Word64) (s : State) : Host.Outcome State Fault Refusal :=
  performIn .live s
    (match kernelInsert s.config s.mem s.base s.bucketCount hash with
     | none => .refused .kernelPrecondition
     | some r => .next (reportStatus (accessMemory s r.mem r.events) r.status))

/-- `CONTAINS` (R148): the kernel's status, no store; refused where the kernel has no meaning (R58). -/
def execContains (hash : Word64) (s : State) : Host.Outcome State Fault Refusal :=
  performIn .live s
    (match kernelContains s.config s.mem s.base s.bucketCount hash with
     | none => .refused .kernelPrecondition
     | some r => .next (reportStatus (accessMemory s r.mem r.events) r.status))

/-- `RELEASE` (R150): the recorded size goes out, the registers are cleared, memory keeps its bits (R70). -/
def execRelease (s : State) : Host.Outcome State Fault Refusal :=
  performIn .live s (.next (respond (closeFilter s) .ok s.byteLength))

end Sys2Proof.Machine
end

