-- ==== Sys2Proof/Machine/Registers.lean ====
section
/-! DEFINITION. `RDCSR` (43_filter_commands.md R152). -/

namespace Sys2Proof.Machine

/-- `RDCSR` (R152): line 2 of the step function, performed in every unit state, writing nothing. A number that names no
register is answered as the illegal word it comes from (R24, R88 (d)). -/
def execRdcsr (csr : Word64) (s : State) : Host.Outcome State Fault Refusal :=
  match csrOfNumber csr with
  | some r => .next (respond s .ok (readCsr s r))
  | none => .next (respond s .errIllegal 0)

end Sys2Proof.Machine
end

