-- ==== Sys2Proof/Machine/Dispatch.lean ====
section
/-! DEFINITION. The meaning of every command (43_filter_commands.md R140). -/

namespace Sys2Proof.Machine

def exec (i : Instr) (s : State) : Host.Outcome State Fault Refusal :=
  match i with
  | .new bitsPerKey expectedKeys base => Sys2Proof.Machine.execNew bitsPerKey expectedKeys base s
  | .insert hash => Sys2Proof.Machine.execInsert hash s
  | .contains hash => Sys2Proof.Machine.execContains hash s
  | .release => Sys2Proof.Machine.execRelease s
  | .rdcsr csr => Sys2Proof.Machine.execRdcsr csr s

end Sys2Proof.Machine
end

