-- ==== Sys2Proof/Machine/Port.lean ====
section
/-! DEFINITION. What the unit does with the next thing that reaches its ports (30_encoding.md R80, 43_filter_commands.md
R140, 70_reset_and_hazards.md R180). -/

namespace Sys2Proof.Machine

/-- `Step(w)` (R140): an illegal word is answered `ERR_ILLEGAL` in every unit state (R88), any other is its command. -/
def runWord (w : CommandWord) (s : State) : Host.Outcome State Fault Refusal :=
  match decode w with
  | .ok i => exec i s
  | .error _ => .next (respond s .errIllegal 0)

/-- One action of the host, taken between commands (R13, R180, R184). -/
def runAction (a : HostAction) (s : State) : Host.Outcome State Fault Refusal :=
  match a with
  | .present w => runWord w s
  | .assertReset => .next (resetUnit s)
  | .writeByte addr value => hostWrite addr value s
  | .readByte addr => hostRead addr s

/-- The next action is taken off the host's list before it acts. -/
def dropAction (s : State) : State := { s with hostActions := s.hostActions.tail }

end Sys2Proof.Machine
end

