-- ==== Sys2Proof/Machine/Step.lean ====
section
/-! DEFINITION. One step: the host's next action; with none waiting the unit is idle, its state held (R177). -/

namespace Sys2Proof.Machine

/-- One step of the unit (R13, R140). -/
def step (s : State) : Host.Outcome State Fault Refusal :=
  match s.hostActions with
  | [] => .next s
  | a :: _ => runAction a (dropAction s)

/-- `s` with the command word that has the bits of `w` presented next on the command port (R22, R80; log entry 5). -/
def State.withFetchWord (s : State) (nbits w : Nat) : State :=
  { s with hostActions := .present (tableCommandWord nbits w) :: s.hostActions }

end Sys2Proof.Machine
end

