-- ==== Sys2Proof/Safety.lean ====
section
/-! DEFINITION. What counts as a good state and a good run, in the terms the statements use (10_state.md R33,
60_exceptions.md R166). -/

namespace Sys2Proof.Machine

/-- The registers of a live filter (R33 (a), R25 to R27). -/
abbrev State.LiveRegisters (s : State) : Prop :=
  s.base.toNat % 64 = 0 ∧ s.byteLength.toNat % 64 = 0 ∧ 64 ≤ s.byteLength.toNat ∧
    s.byteLength.toNat = 32 * s.bucketCount.toNat ∧ 2 ≤ s.bucketCount.toNat ∧
    s.bucketCount.toNat ≤ 2 ^ 32 - 2 ∧ s.base.toNat + s.byteLength.toNat ≤ s.config.memBytes

/-- The registers while there is no filter (R33 (b)). -/
abbrev State.ClearedRegisters (s : State) : Prop :=
  s.base = 0 ∧ s.byteLength = 0 ∧ s.bucketCount = 0 ∧ s.hit = false

/-- Memory in canonical form that lists backed addresses only (R50). -/
abbrev State.MemoryGood (s : State) : Prop := s.mem.wf ∧ ∀ x ∈ s.mem, x.1 < s.config.memBytes

/-- The invariant of the step function: admissible build parameters (R10, R11), good memory, and the registers as R33
ties them together. -/
abbrev State.Inv (s : State) : Prop :=
  s.config.Valid ∧ s.MemoryGood ∧ (s.unit = .live → s.LiveRegisters) ∧ (s.unit ≠ .live → s.ClearedRegisters)

/-- Not gone wrong: `FAULT = 0` (R166). -/
abbrev State.Good (s : State) : Prop := s.unit ≠ .fault

/-- The address range of a memory event. -/
def MemEvent.range : MemEvent → Nat × Nat
  | .read addr bytes => (addr, bytes)
  | .write addr bytes => (addr, bytes)
  | .readHalves addr => (addr, 32)
  | .writeHalves addr => (addr, 32)
  | .zeroFill addr bytes => (addr, bytes)

/-- The alignment an access has by its width: each vector access is naturally aligned, the zero-fill starts a cache
line (R56). -/
def MemEvent.aligned : MemEvent → Prop
  | .read addr bytes => addr % bytes = 0
  | .write addr bytes => addr % bytes = 0
  | .readHalves addr => addr % 16 = 0
  | .writeHalves addr => addr % 16 = 0
  | .zeroFill addr _ => addr % 64 = 0

/-- The accesses an `INSERT` of the bucket at `addr` makes, by backend (R59): reads first, then the store. -/
def insertAccesses (b : Backend) (addr : Nat) : List MemEvent :=
  match b with
  | .v256 => [.read addr 32, .write addr 32]
  | .v128p => [.readHalves addr, .writeHalves addr]

/-- The accesses a `CONTAINS` of the bucket at `addr` makes, by backend (R59): reads only. -/
def containsAccesses (b : Backend) (addr : Nat) : List MemEvent :=
  match b with
  | .v256 => [.read addr 32]
  | .v128p => [.readHalves addr]

/-- What a run shows that must not depend on the backend: everything but the backend itself and the widths of the
accesses on the memory port (R9, R123, R183). -/
def State.backendBlind (s : State) : State :=
  { s with config := { s.config with backend := .v256 }, memPort := [] }

/-- The same state on an instance with another backend. -/
def State.withBackend (s : State) (b : Backend) : State := { s with config := { s.config with backend := b } }

/-- An outcome seen through a view of the state. -/
def viewOutcome (f : State → State) : Host.Outcome State Fault Refusal → Host.Outcome State Fault Refusal
  | .next s => .next (f s)
  | .fault r => .fault r
  | .refused r => .refused r

/-- The action neither ends the filter's life nor the unit's: no reset and no `RELEASE`. -/
def HostAction.keepsFilter : HostAction → Prop
  | .present w => decode w ≠ .ok .release
  | .assertReset => False
  | .writeByte _ _ => True
  | .readByte _ => True

/-- The action does not read `STATUS`, the one register that shows the backend (R29). -/
def HostAction.blindToBackend : HostAction → Prop
  | .present w => decode w ≠ .ok (.rdcsr 4)
  | .assertReset => True
  | .writeByte _ _ => True
  | .readByte _ => True

end Sys2Proof.Machine
end

