-- ==== Sys2Proof/Certificates/Slice0/Obligations.lean ====
section
/-! DEFINITION. The statements about the model, grouped as the spec's files are. Each docstring names the rules of
spec/ a statement formalises, and the log entry where a clause is the model's own. No statement fixes a build parameter:
`State.config` is any configuration, so `BACKEND`, `SALT` and `MEM_BYTES` are quantified over (R9 to R11). That the
response port and the memory port are lists that grow is the model's own throughout (log entries 6 and 7). -/

open Sys2Proof Sys2Proof.Machine

/-! ## Encoding (30_encoding.md) -/

/-- R83: a command word is its three fields; decoding and encoding are inverse to each other between the legal words
and the well-formed commands. -/
def Obligations.CommandsAndWordsCorrespond : Prop :=
  (∀ (op : BitVec 8) (a b : Word64),
    (commandWord op a b).toNat = op.toNat * 2 ^ 128 + a.toNat * 2 ^ 64 + b.toNat ∧
      opField (commandWord op a b) = op ∧ aField (commandWord op a b) = a ∧ bField (commandWord op a b) = b) ∧
  (∀ w : CommandWord, commandWord (opField w) (aField w) (bField w) = w) ∧
  (∀ i : Instr, wellFormed i = true → decode (encode i) = .ok i) ∧
  (∀ (w : CommandWord) (i : Instr), decode w = .ok i → wellFormed i = true ∧ encode i = w)

/-- R88: which words are illegal, and that one is answered `ERR_ILLEGAL, 0` in every unit state with no state changed
and no memory accessed. -/
def Obligations.IllegalWordsAreExactlyThese : Prop :=
  (∀ w : CommandWord, (∃ e, decode w = .error e) ↔
    ((opField w = 0 ∨ 5 < (opField w).toNat) ∨
      ((opField w = 2 ∨ opField w = 3) ∧ bField w ≠ 0) ∨
      (opField w = 4 ∧ (aField w ≠ 0 ∨ bField w ≠ 0)) ∨
      (opField w = 5 ∧ (4 < (aField w).toNat ∨ bField w ≠ 0)))) ∧
  (∀ (s : State) (w : CommandWord) (rest : List HostAction) (e : DecodeError),
    s.hostActions = .present w :: rest → decode w = .error e →
      step s = .next { s with
        hostActions := rest, responses := s.responses ++ [{ code := .errIllegal, data := 0 }] })

/-- R92: a word is legal iff it selects a row of the opcode table (and `A <= 4` for `RDCSR`), it decodes to that row's
command, and no word selects two rows. -/
def Obligations.OpcodeTableSelectsTheLegalWords : Prop :=
  (∀ w : CommandWord, (∃ i, decode w = .ok i) ↔
    ∃ r ∈ opcodeTable, r.selects w ∧ (r.mnemonic = "RDCSR" → (aField w).toNat ≤ 4)) ∧
  (∀ (w : CommandWord) (i : Instr), decode w = .ok i →
    ∃ r ∈ opcodeTable, r.selects w ∧ r.mnemonic = mnemonic i) ∧
  (∀ (w : CommandWord), ∀ r ∈ opcodeTable, ∀ r' ∈ opcodeTable, r.selects w → r'.selects w → r = r')

/-- R91: the five worked encodings, decoded and encoded. -/
def Obligations.WorkedEncodingsDecode : Prop :=
  decode 0x0100000010000004000000000000010000 = .ok (.new 16 1024 0x10000) ∧
  encode (.new 16 1024 0x10000) = 0x0100000010000004000000000000010000 ∧
  decode 0x029E3779B97F4A7C150000000000000000 = .ok (.insert 0x9E3779B97F4A7C15) ∧
  encode (.insert 0x9E3779B97F4A7C15) = 0x029E3779B97F4A7C150000000000000000 ∧
  decode 0x039E3779B97F4A7C150000000000000000 = .ok (.contains 0x9E3779B97F4A7C15) ∧
  encode (.contains 0x9E3779B97F4A7C15) = 0x039E3779B97F4A7C150000000000000000 ∧
  decode 0x0400000000000000000000000000000000 = .ok .release ∧
  encode .release = 0x0400000000000000000000000000000000 ∧
  decode 0x0500000000000000040000000000000000 = .ok (.rdcsr 4) ∧
  encode (.rdcsr 4) = 0x0500000000000000040000000000000000

/-- R84, R85: a response word is `CODE ‖ DATA`, with the five codes of the table; no two responses share a word. -/
def Obligations.ResponseWordLayout : Prop :=
  (∀ r : Response, r.word.toNat = r.code.bits.toNat * 2 ^ 64 + r.data.toNat) ∧
  Code.ok.bits = 0x00 ∧ Code.errIllegal.bits = 0x01 ∧ Code.errState.bits = 0x02 ∧
  Code.errGeometry.bits = 0x03 ∧ Code.fatal.bits = 0xFF ∧
  (∀ r r' : Response, r.word = r'.word → r = r')

/-! ## The step (00_scope.md R13, 43_filter_commands.md R140) -/

/-- R13, R140, R177: a step takes one word from the command port and runs the command it decodes to; with no word
waiting the state is held. (The list of waiting actions and the idle step are the model's own, log entries 5 and 8.) -/
def Obligations.StepRunsTheDecodedCommand : Prop :=
  (∀ (s : State) (w : CommandWord) (rest : List HostAction) (i : Instr),
    s.hostActions = .present w :: rest → decode w = .ok i → step s = exec i { s with hostActions := rest }) ∧
  (∀ s : State, s.hostActions = [] → step s = .next s)

/-- The model's own (log entry 5): a word placed by `withFetchWord` is the next command, whatever waits behind it. -/
def Obligations.PlacedWordRunsNext : Prop :=
  ∀ (s : State) (nbits w : Nat),
    (∀ i, decodeTableWord nbits w = some i → step (s.withFetchWord nbits w) = exec i s) ∧
    (decodeTableWord nbits w = none → step (s.withFetchWord nbits w) = .next (respond s .errIllegal 0))

/-- R167: of the conditions that hold for a word, the first in the fixed order decides the one response. -/
def Obligations.OutcomesHaveAFixedPriority : Prop :=
  ∀ (s t : State) (w : CommandWord) (rest : List HostAction),
    s.hostActions = .present w :: rest → step s = .next t →
    ∃ r, t.responses = s.responses ++ [r] ∧
      r.code = (match decode w with
        | .error _ => .errIllegal
        | .ok (.rdcsr _) => .ok
        | .ok (.new bitsPerKey expectedKeys base) =>
          if s.unit = .fault then .fatal
          else if s.unit ≠ .empty then .errState
          else if ¬ geometryOK (geometryBytes bitsPerKey expectedKeys) then .errGeometry
          else if ¬ allocOK s.config base (geometryBytes bitsPerKey expectedKeys) then .fatal
          else .ok
        | .ok _ => if s.unit = .fault then .fatal else if s.unit ≠ .live then .errState else .ok)

/-! ## Reset and the other agents (10_state.md R38, 70_reset_and_hazards.md) -/

/-- R38, R180, R181: what reset leaves, from any state, and that the machine starts there: memory and the instance are
not touched. (The model's own: that the ports' histories stay, log entries 6 and 7; the instance `Config.standard` of
`State.reset`, log entries 1 and 3.) -/
def Obligations.ResetLeavesTheResetValues : Prop :=
  (∀ (s : State) (rest : List HostAction), s.hostActions = .assertReset :: rest →
    ∃ t, step s = .next t ∧
      t = { s with
        hostActions := rest, unit := .empty, base := 0, byteLength := 0, bucketCount := 0, hit := false } ∧
      readCsr t .base = 0 ∧ readCsr t .byteLength = 0 ∧ readCsr t .bucketCount = 0 ∧ readCsr t .align = 64 ∧
      readCsr t .status = (match s.config.backend with | .v256 => 0 | .v128p => 0x100)) ∧
  (∀ c : Config,
    (State.resetOf c).unit = .empty ∧ (State.resetOf c).hit = false ∧
      readCsr (State.resetOf c) .base = 0 ∧ readCsr (State.resetOf c) .byteLength = 0 ∧
      readCsr (State.resetOf c) .bucketCount = 0 ∧ readCsr (State.resetOf c) .align = 64 ∧
      readCsr (State.resetOf c) .status = (match c.backend with | .v256 => 0 | .v128p => 0x100)) ∧
  State.reset = State.resetOf Config.standard

/-- R50, R62, R64, R184, R185: another agent may write and read any backed byte outside a live buffer (its write
changes that byte alone, its read nothing); an access to a live buffer is refused, one to an unbacked address is a
fault. (Both stops are the model's own form of "no meaning" and "not backed", log entry 9.) -/
def Obligations.OtherAgentsKeepOffALiveBuffer : Prop :=
  ∀ (s : State) (rest : List HostAction) (addr : Word64) (v : Byte), s.mem.wf →
    (s.hostActions = .writeByte addr v :: rest →
      (s.config.memBytes ≤ addr.toNat → step s = .fault .unbackedAddress) ∧
      (addr.toNat < s.config.memBytes → s.inLiveBuffer addr.toNat → step s = .refused .liveBufferTouched) ∧
      (addr.toNat < s.config.memBytes → ¬ s.inLiveBuffer addr.toNat →
        ∃ t, step s = .next t ∧ t = { s with hostActions := rest, mem := t.mem } ∧
          ∀ x, t.mem.peek x = if x = addr.toNat then v else s.mem.peek x)) ∧
    (s.hostActions = .readByte addr :: rest →
      (s.config.memBytes ≤ addr.toNat → step s = .fault .unbackedAddress) ∧
      (addr.toNat < s.config.memBytes → s.inLiveBuffer addr.toNat → step s = .refused .liveBufferTouched) ∧
      (addr.toNat < s.config.memBytes → ¬ s.inLiveBuffer addr.toNat →
        step s = .next { s with hostActions := rest }))

/-! ## The sizing rule (40_bucket_layout_sizing.md) -/

/-- R104: `byte_length` is the multiple of 64 nearest to `raw_bytes`, a tie going up. -/
def Obligations.SizeIsTheNearestLineMultiple : Prop :=
  (∀ bitsPerKey expectedKeys : BitVec 32,
    geometryBytes bitsPerKey expectedKeys = roundToLine (bitsPerKey.toNat * expectedKeys.toNat / 8)) ∧
  ∀ raw : Nat,
    roundToLine raw % 64 = 0 ∧ raw < roundToLine raw + 32 ∧ roundToLine raw ≤ raw + 32 ∧
    (1 ≤ raw % 64 → raw % 64 ≤ 31 → roundToLine raw < raw) ∧
    (32 ≤ raw % 64 → raw < roundToLine raw) ∧
    (raw % 64 = 32 → roundToLine raw = raw + 32) ∧
    raw ≤ roundToLine raw + 31 ∧ (roundToLine raw = 0 ↔ raw < 32)

/-- R103: no step of `Geometry` overflows 64 bits. -/
def Obligations.GeometryFitsSixtyFourBits : Prop :=
  ∀ bitsPerKey expectedKeys : BitVec 32,
    bitsPerKey.toNat * expectedKeys.toNat ≤ (2 ^ 32 - 1) ^ 2 ∧
    rawBytes bitsPerKey expectedKeys < 2 ^ 61 ∧ rawBytes bitsPerKey expectedKeys + 32 < 2 ^ 62 ∧
    geometryBytes bitsPerKey expectedKeys ≤ rawBytes bitsPerKey expectedKeys + 32 ∧
    geometryBytes bitsPerKey expectedKeys < 2 ^ 62

/-- R105, R106: a geometry is usable exactly when it has 2 to `2^32 - 2` buckets, an even number that fills the buffer
exactly. -/
def Obligations.UsableGeometryIsAnEvenBucketCount : Prop :=
  ∀ bitsPerKey expectedKeys : BitVec 32,
    (geometryOK (geometryBytes bitsPerKey expectedKeys) ↔
      2 ≤ bucketsIn (geometryBytes bitsPerKey expectedKeys) ∧
        bucketsIn (geometryBytes bitsPerKey expectedKeys) ≤ 2 ^ 32 - 2) ∧
    bucketsIn (geometryBytes bitsPerKey expectedKeys) % 2 = 0 ∧
    32 * bucketsIn (geometryBytes bitsPerKey expectedKeys) = geometryBytes bitsPerKey expectedKeys

/-! ## The index and the mask (41_index_mask.md) -/

/-- R112: range and shape of the bucket index. -/
def Obligations.BucketIndexIsFastrange : Prop :=
  ∀ (h : Word64) (n : BitVec 32),
    (1 ≤ n.toNat → (bucketIndex h n).toNat < n.toNat) ∧
    (bucketIndex h n).toNat = (hashHi h).toNat * n.toNat / 2 ^ 32 ∧
    (∀ h' : Word64, (hashHi h).toNat ≤ (hashHi h').toNat → (bucketIndex h n).toNat ≤ (bucketIndex h' n).toNat) ∧
    (hashHi h = 0 → bucketIndex h n = 0) ∧
    (hashHi h = 0xFFFFFFFF → 1 ≤ n.toNat → (bucketIndex h n).toNat = n.toNat - 1) ∧
    (∀ h' : Word64, hashHi h' = hashHi h → bucketIndex h' n = bucketIndex h n) ∧
    (∀ k, n.toNat = 2 ^ k → (bucketIndex h n).toNat = h.toNat / 2 ^ (64 - k)) ∧
    (n = 0 → bucketIndex h n = 0)

/-- R116 (a) to (d): the mask has exactly eight bits, one in each lane; it depends on `lo` alone, the index on `hi`
alone; and its values at `lo = 0` (any salts) and `lo = 0x80000000` (odd salts). -/
def Obligations.MaskHasOneBitInEveryLane : Prop :=
  ∀ (c : Config) (h : Word64),
    (∀ i, i < 8 → ∀ j, j < 32 → (mask c h).getLsbD (32 * i + j) = decide (j = (maskExp c h i).toNat)) ∧
    (∀ i, i < 8 → lane (mask c h) i ≠ 0) ∧
    (List.range 256).countP (fun p => (mask c h).getLsbD p) = 8 ∧
    (∀ h' : Word64, hashLo h' = hashLo h → mask c h' = mask c h) ∧
    (∀ (h' : Word64) (n : BitVec 32), hashHi h' = hashHi h → bucketIndex h' n = bucketIndex h n) ∧
    (hashLo h = 0 → ∀ i, i < 8 → maskExp c h i = 0 ∧ lane (mask c h) i = 0x00000001) ∧
    (hashLo h = 0x80000000 → ∀ i, i < 8 → (c.saltLane i).toNat % 2 = 1 →
      maskExp c h i = 16 ∧ lane (mask c h) i = 0x00010000)

/-! ## Memory (20_memory.md) -/

/-- R55: a 32-byte access and the two 16-byte accesses of its halves see one memory. -/
def Obligations.MixedWidthsSeeOneMemory : Prop :=
  ∀ (c : Config) (m : Memory) (a : Nat), a % 32 = 0 →
    memRead 256 c m a =
      (do let lo ← memRead 128 c m a
          let hi ← memRead 128 c m (a + 16)
          some (hi ++ lo)) ∧
    ∀ v : BitVec 256, memWrite c m a v =
      (do let m1 ← memWrite c m a (v.extractLsb' 0 128)
          memWrite c m1 (a + 16) (v.extractLsb' 128 128))

/-- R53, R54, R62: a write is refused where a byte is not backed; else it stores its bytes, least significant first,
and changes no other, and the read of the same width gives the value back. -/
def Obligations.WriteThenReadGivesTheValue : Prop :=
  ∀ (w : Nat) (c : Config) (m : Memory) (a : Nat) (v : BitVec w), w % 8 = 0 → m.wf →
    (c.memBytes < a + w / 8 → memWrite c m a v = none ∧ memRead w c m a = none) ∧
    (a + w / 8 ≤ c.memBytes →
      ∃ m', memWrite c m a v = some m' ∧ memRead w c m' a = some v ∧
        (∀ j, j < w / 8 → m'.peek (a + j) = v.extractLsb' (8 * j) 8) ∧
        (∀ x, x < a ∨ a + w / 8 ≤ x → m'.peek x = m.peek x))

/-! ## The kernels (42_kernel_backends.md) -/

/-- R124: the equal forms of the subset test. -/
def Obligations.SubsetTestFormsAgree : Prop :=
  (∀ bucket m : Bucket,
    (bucket &&& m = m ↔ ~~~bucket &&& m = 0) ∧
    (bucket &&& m = m ↔ ∀ p, m.getLsbD p = true → bucket.getLsbD p = true) ∧
    (bucket &&& m = m ↔
      bucket.extractLsb' 0 128 &&& m.extractLsb' 0 128 = m.extractLsb' 0 128 ∧
        bucket.extractLsb' 128 128 &&& m.extractLsb' 128 128 = m.extractLsb' 128 128)) ∧
  (∀ (c : Config) (h : Word64) (bucket : Bucket),
    bucket &&& mask c h = mask c h ↔
      ∀ i, i < 8 → (lane bucket i).getLsbD (maskExp c h i).toNat = true)

/-- R126, R129: the lane-wise operations of both backends build `Mask(h)`. -/
def Obligations.BackendsBuildTheMask : Prop :=
  ∀ (c : Config) (h : Word64),
    let vm := vsllv32 (vsplat32 256 1#32) (vsrl32 (vmullo32 (salt256 c) (vsplat32 256 (hashLo h))) 27)
    let vmLo := vsllv32 (vsplat32 128 1#32) (vsrl32 (vmullo32 (saltLo c) (vsplat32 128 (hashLo h))) 27)
    let vmHi := vsllv32 (vsplat32 128 1#32) (vsrl32 (vmullo32 (saltHi c) (vsplat32 128 (hashLo h))) 27)
    vm = mask c h ∧ maskRegister (salt256 c) h = vm ∧
    vmLo = (mask c h).extractLsb' 0 128 ∧ maskRegister (saltLo c) h = vmLo ∧
    vmHi = (mask c h).extractLsb' 128 128 ∧ maskRegister (saltHi c) h = vmHi ∧ vmHi ++ vmLo = mask c h

/-- R123, R131: each backend computes exactly the contract: the same boolean, the same memory, and an answer on the
same arguments. -/
def Obligations.BackendsRefineTheContract : Prop :=
  ∀ (c : Config) (m : Memory) (base : Word64) (n : BitVec 32) (h : Word64),
    (kernelInsertV256 c m base n h).map (fun r => (r.status, r.mem)) = kernelInsertRef c m base n h ∧
    (kernelInsertV128P c m base n h).map (fun r => (r.status, r.mem)) = kernelInsertRef c m base n h ∧
    (kernelContainsV256 c m base n h).map (fun r => (r.status, r.mem)) =
      (kernelContainsRef c m base n h).map (fun b => (b, m)) ∧
    (kernelContainsV128P c m base n h).map (fun r => (r.status, r.mem)) =
      (kernelContainsRef c m base n h).map (fun b => (b, m))

/-- R135, R122, R121: the contract read lane by lane, with 32-bit lanes in memory. -/
def Obligations.KernelsActLaneByLane : Prop :=
  ∀ (c : Config) (m : Memory) (base : Word64) (n : BitVec 32) (h : Word64), m.wf → kernelPre c base n →
    (∃ r, kernelContains c m base n h = some r ∧ r.mem = m ∧
      (r.status = true ↔ ∀ i, i < 8 →
        (m.load 32 (bucketAddr base (bucketIndex h n) + 4 * i) 4).getLsbD (maskExp c h i).toNat = true)) ∧
    (∃ r, kernelInsert c m base n h = some r ∧
      (r.status = true ↔ ∀ i, i < 8 →
        (m.load 32 (bucketAddr base (bucketIndex h n) + 4 * i) 4).getLsbD (maskExp c h i).toNat = true) ∧
      ∀ i, i < 8 →
        r.mem.load 32 (bucketAddr base (bucketIndex h n) + 4 * i) 4 =
          m.load 32 (bucketAddr base (bucketIndex h n) + 4 * i) 4 ||| 1#32 <<< (maskExp c h i).toNat)

/-- R58, R120: a kernel has a meaning exactly under its precondition; `INSERT` and `CONTAINS` of a live filter without
it are refused by name (no run reaches such a state, R168; the refusal is the model's own form, log entry 10). -/
def Obligations.KernelsNeedTheirPrecondition : Prop :=
  (∀ (c : Config) (m : Memory) (base : Word64) (n : BitVec 32) (h : Word64),
    (kernelInsert c m base n h = none ↔ ¬ kernelPre c base n) ∧
    (kernelContains c m base n h = none ↔ ¬ kernelPre c base n)) ∧
  (∀ (s : State) (h : Word64), s.unit = .live → ¬ kernelPre s.config s.base s.bucketCount →
    exec (.insert h) s = .refused .kernelPrecondition ∧ exec (.contains h) s = .refused .kernelPrecondition)

/-! ## The commands (43_filter_commands.md) -/

/-- R145: a `NEW` with a usable geometry and region answers `OK` with the buffer zeroed, the registers set as R33 (a)
asks, `HIT` cleared and every other byte and port as before. -/
def Obligations.NewMakesAZeroedFilter : Prop :=
  ∀ (s : State) (bitsPerKey expectedKeys : BitVec 32) (base : Word64),
    let bytes := geometryBytes bitsPerKey expectedKeys
    s.unit = .empty → geometryOK bytes → allocOK s.config base bytes →
    ∃ t, exec (.new bitsPerKey expectedKeys base) s = .next t ∧
      t.unit = .live ∧ t.base = base ∧ t.byteLength.toNat = bytes ∧ t.bucketCount.toNat = bytes / 32 ∧
      t.hit = false ∧
      t.responses = s.responses ++ [{ code := .ok, data := BitVec.ofNat 64 bytes }] ∧
      t.memPort = s.memPort ++ [.zeroFill base.toNat bytes] ∧
      t.config = s.config ∧ t.hostActions = s.hostActions ∧ t.LiveRegisters ∧
      (∀ x, base.toNat ≤ x → x < base.toNat + bytes → t.mem.peek x = 0) ∧
      (∀ x, x < base.toNat ∨ base.toNat + bytes ≤ x → t.mem.peek x = s.mem.peek x)

/-- R145: the block zero-fill is the loop of 64-byte writes in ascending order, on memory in canonical form. (That an
unlisted byte reads as 0 is the model's own, log entry 4.) -/
def Obligations.ZeroFillIsTheLoopOfLineWrites : Prop :=
  ∀ (m : Memory) (addr lines : Nat), m.wf → m.zeroFillByLines addr lines = m.zeroFill addr (64 * lines)

/-- R142: a `NEW` whose geometry is unusable answers `ERR_GEOMETRY` with the computed length and changes nothing. -/
def Obligations.NewRefusesAnUnusableGeometry : Prop :=
  ∀ (s : State) (bitsPerKey expectedKeys : BitVec 32) (base : Word64),
    s.unit = .empty →
    (geometryBytes bitsPerKey expectedKeys < 64 ∨ 2 ^ 37 ≤ geometryBytes bitsPerKey expectedKeys) →
    exec (.new bitsPerKey expectedKeys base) s = .next { s with
      responses := s.responses ++
        [{ code := .errGeometry, data := BitVec.ofNat 64 (geometryBytes bitsPerKey expectedKeys) }] } ∧
    (BitVec.ofNat 64 (geometryBytes bitsPerKey expectedKeys)).toNat = geometryBytes bitsPerKey expectedKeys

/-- R144, R165: a `NEW` with a usable geometry whose region fails `AllocOK` sets `FAULT`, answers `FATAL` with the
length, and changes nothing else. -/
def Obligations.NewWithoutARegionIsFatal : Prop :=
  ∀ (s : State) (bitsPerKey expectedKeys : BitVec 32) (base : Word64),
    s.unit = .empty → geometryOK (geometryBytes bitsPerKey expectedKeys) →
    (base.toNat % 64 ≠ 0 ∨ s.config.memBytes < base.toNat + geometryBytes bitsPerKey expectedKeys) →
    exec (.new bitsPerKey expectedKeys base) s = .next { s with
      unit := .fault
      responses := s.responses ++
        [{ code := .fatal, data := BitVec.ofNat 64 (geometryBytes bitsPerKey expectedKeys) }] }

/-- R146, R121, R59, R60: an `INSERT` on a live filter rewrites its bucket with `bucket OR mask` (always), and reports
whether every mask bit was set in the bucket as loaded; nothing else changes. -/
def Obligations.InsertStoresTheMaskAndReports : Prop :=
  ∀ (s : State) (h : Word64), s.unit = .live → s.mem.wf → kernelPre s.config s.base s.bucketCount →
    let a := bucketAddr s.base (bucketIndex h s.bucketCount)
    let bucket := s.mem.load 256 a 32
    let m := mask s.config h
    let status := decide (bucket &&& m = m)
    ∃ t, exec (.insert h) s = .next t ∧
      t = { s with
        mem := t.mem
        hit := status
        responses := s.responses ++ [{ code := .ok, data := if status then 1 else 0 }]
        memPort := s.memPort ++ insertAccesses s.config.backend a } ∧
      t.mem.load 256 a 32 = bucket ||| m ∧
      (∀ x, x < a ∨ a + 32 ≤ x → t.mem.peek x = s.mem.peek x) ∧ t.mem.wf

/-- R148, R122, R59: a `CONTAINS` on a live filter reports whether every mask bit is set in the bucket; only `HIT` and
the ports change. -/
def Obligations.ContainsReportsAndStoresNothing : Prop :=
  ∀ (s : State) (h : Word64), s.unit = .live → kernelPre s.config s.base s.bucketCount →
    let a := bucketAddr s.base (bucketIndex h s.bucketCount)
    let status := decide (s.mem.load 256 a 32 &&& mask s.config h = mask s.config h)
    exec (.contains h) s = .next { s with
      hit := status
      responses := s.responses ++ [{ code := .ok, data := if status then 1 else 0 }]
      memPort := s.memPort ++ containsAccesses s.config.backend a }

/-- R150: a `RELEASE` answers with the recorded size and leaves every register at its reset value and memory alone. -/
def Obligations.ReleaseHandsTheBufferBack : Prop :=
  ∀ s : State, s.unit = .live →
    ∃ t, exec .release s = .next t ∧
      t = { s with
        unit := .empty, base := 0, byteLength := 0, bucketCount := 0, hit := false,
        responses := s.responses ++ [{ code := .ok, data := s.byteLength }] } ∧
      ∀ r, readCsr t r = readCsr (State.resetOf s.config) r

/-- R152, R24, R27, R28: a `RDCSR` of 0 to 4 answers the register's value in every unit state and changes nothing; a
number above 4, which no word decodes to, is answered `ERR_ILLEGAL` (the model's own, log entry 12). -/
def Obligations.RdcsrReadsEveryRegister : Prop :=
  ∀ s : State,
    exec (.rdcsr 0) s = .next (respond s .ok s.base) ∧
    exec (.rdcsr 1) s = .next (respond s .ok s.byteLength) ∧
    (∃ v : Word64, v.toNat = s.bucketCount.toNat ∧ exec (.rdcsr 2) s = .next (respond s .ok v)) ∧
    exec (.rdcsr 3) s = .next (respond s .ok 64) ∧
    exec (.rdcsr 4) s = .next (respond s .ok (statusWord s)) ∧
    (∀ n : Word64, 4 < n.toNat → exec (.rdcsr n) s = .next (respond s .errIllegal 0)) ∧
    (∀ (code : Code) (data : Word64),
      respond s code data = { s with responses := s.responses ++ [{ code := code, data := data }] })

/-- R29 to R31: the fields of `STATUS`; every other bit reads 0; `LIVE` and `FAULT` are never both 1. -/
def Obligations.StatusRegisterFields : Prop :=
  ∀ s : State,
    (statusWord s).getLsbD 0 = decide (s.unit = .live) ∧
    (statusWord s).getLsbD 1 = decide (s.unit = .fault) ∧
    (statusWord s).getLsbD 2 = s.hit ∧
    (∀ p, 3 ≤ p → p ≤ 7 → (statusWord s).getLsbD p = false) ∧
    (statusWord s).extractLsb' 8 2 = (match s.config.backend with | .v256 => 0 | .v128p => 1) ∧
    (∀ p, 10 ≤ p → (statusWord s).getLsbD p = false) ∧
    (s.unit = .empty ↔ (statusWord s).getLsbD 0 = false ∧ (statusWord s).getLsbD 1 = false) ∧
    ¬ ((statusWord s).getLsbD 0 = true ∧ (statusWord s).getLsbD 1 = true)

/-! ## Errors and `FAULT` (60_exceptions.md) -/

/-- R163: `NEW` of a live unit, and `INSERT`, `CONTAINS` and `RELEASE` of an empty one, answer `ERR_STATE, 0` and leave
the unit unchanged. -/
def Obligations.CommandsOutOfOrderAreRefused : Prop :=
  ∀ s : State,
    (s.unit = .live → ∀ (bitsPerKey expectedKeys : BitVec 32) (base : Word64),
      exec (.new bitsPerKey expectedKeys base) s = .next { s with
        responses := s.responses ++ [{ code := .errState, data := 0 }] }) ∧
    (s.unit = .empty → ∀ i : Instr, ((∃ h, i = .insert h) ∨ (∃ h, i = .contains h) ∨ i = .release) →
      exec i s = .next { s with responses := s.responses ++ [{ code := .errState, data := 0 }] })

/-- R166: in `FAULT` every legal command but `RDCSR` answers `FATAL, 0` and changes nothing, `RDCSR` works (and
`STATUS` reads `0x002` or `0x102`, `HIT` being 0), an illegal word still gets `ERR_ILLEGAL`, and only reset leaves. -/
def Obligations.FaultIsLeftOnlyByReset : Prop :=
  (∀ (s : State) (w : CommandWord) (rest : List HostAction),
    s.unit = .fault → s.hostActions = .present w :: rest →
    (∀ i, decode w = .ok i → (∀ n, i ≠ .rdcsr n) → step s = .next { s with
      hostActions := rest, responses := s.responses ++ [{ code := .fatal, data := 0 }] }) ∧
    (∀ n r, decode w = .ok (.rdcsr n) → csrOfNumber n = some r → step s = .next { s with
      hostActions := rest, responses := s.responses ++ [{ code := .ok, data := readCsr s r }] }) ∧
    (∀ e, decode w = .error e → step s = .next { s with
      hostActions := rest, responses := s.responses ++ [{ code := .errIllegal, data := 0 }] })) ∧
  (∀ s : State, s.unit = .fault → s.hit = false →
    readCsr s .status = (match s.config.backend with | .v256 => 0x002 | .v128p => 0x102)) ∧
  (∀ s t : State, s.unit = .fault → step s = .next t → t.unit ≠ .fault →
    t.unit = .empty ∧ ∃ rest, s.hostActions = .assertReset :: rest)

/-- R170: a command answered with any code but `OK` changes no register and no memory, but for the `FAULT` bit on fatal
entry. -/
def Obligations.RefusedCommandsHaveNoEffect : Prop :=
  ∀ (s t : State) (w : CommandWord) (rest : List HostAction) (r : Response),
    s.hostActions = .present w :: rest → step s = .next t → t.responses = s.responses ++ [r] → r.code ≠ .ok →
    t = { s with hostActions := rest, responses := s.responses ++ [r] } ∨
    (s.unit = .empty ∧ r.code = .fatal ∧
      t = { s with unit := .fault, hostActions := rest, responses := s.responses ++ [r] })

/-! ## The state machine and its registers (10_state.md) -/

/-- R23: the transitions of `STATE`: the unit state after a step is this function of the state and the host's action, and
no other transition exists. -/
def Obligations.UnitStateTransitions : Prop :=
  ∀ s t : State, step s = .next t →
    t.unit = (match s.hostActions with
      | [] => s.unit
      | .assertReset :: _ => .empty
      | .writeByte _ _ :: _ => s.unit
      | .readByte _ :: _ => s.unit
      | .present w :: _ =>
        match decode w with
        | .ok (.new bitsPerKey expectedKeys base) =>
          if s.unit = .empty ∧ geometryOK (geometryBytes bitsPerKey expectedKeys) then
            if allocOK s.config base (geometryBytes bitsPerKey expectedKeys) then .live else .fault
          else s.unit
        | .ok .release => if s.unit = .live then .empty else s.unit
        | .ok (.insert _) => s.unit
        | .ok (.contains _) => s.unit
        | .ok (.rdcsr _) => s.unit
        | .error _ => s.unit)

/-- R32: who writes `HIT`: `INSERT` and `CONTAINS` of a live filter, with the boolean of their response; a `NEW` that makes
a filter, `RELEASE` of a live one, and reset clear it; every other step leaves it. -/
def Obligations.HitHoldsTheLastAnswer : Prop :=
  ∀ s t : State, step s = .next t →
    (∀ w rest h, s.hostActions = .present w :: rest → s.unit = .live →
      (decode w = .ok (.insert h) ∨ decode w = .ok (.contains h)) →
      t.responses = s.responses ++ [{ code := .ok, data := if t.hit then 1 else 0 }]) ∧
    (s.unit = .empty → t.unit = .live → t.hit = false) ∧
    (s.unit = .live → t.unit = .empty → t.hit = false) ∧
    (∀ rest, s.hostActions = .assertReset :: rest → t.hit = false) ∧
    (t.hit ≠ s.hit →
      (∃ rest, s.hostActions = .assertReset :: rest) ∨ (s.unit = .empty ∧ t.unit = .live) ∨
      (s.unit = .live ∧ ∃ w rest, s.hostActions = .present w :: rest ∧
        (decode w = .ok .release ∨ ∃ h, decode w = .ok (.insert h) ∨ decode w = .ok (.contains h))))

/-- R24, R26: between a `NEW` and the next `RELEASE` or reset no step changes `BASE`, `BYTE_LENGTH` or `BUCKET_COUNT`;
and no step of an empty or faulted unit but a `NEW` that makes a filter, or reset, does. -/
def Obligations.GeometryRegistersAreFixedForLife : Prop :=
  ∀ s t : State, step s = .next t →
    (t.base = s.base ∧ t.byteLength = s.byteLength ∧ t.bucketCount = s.bucketCount) ∨
    (s.unit = .empty ∧ t.unit = .live) ∨ (s.unit = .live ∧ t.unit = .empty) ∨
    (∃ rest, s.hostActions = .assertReset :: rest)

/-- R31, R36: no step changes the build parameters. -/
def Obligations.BuildParametersNeverChange : Prop :=
  ∀ s t : State, step s = .next t → t.config = s.config

/-- R33 and the canonical form of memory: the invariant is kept by every step. -/
def Obligations.InvariantIsKeptByEveryStep : Prop :=
  ∀ s t : State, s.Inv → step s = .next t → t.Inv

/-- R33 (b), R38: the invariant holds right after reset, for every admissible instance, `Config.standard` among them (the
model's own, log entries 1 to 4). -/
def Obligations.InvariantHoldsAtReset : Prop :=
  (∀ c : Config, c.Valid → (State.resetOf c).Inv) ∧ Config.standard.Valid ∧ State.reset.Inv

/-- R140, R84: every word gets exactly one response and every step terminates: under the invariant a presented word is
always answered, never a stop, and answers one response. -/
def Obligations.EveryWordIsAnsweredOnce : Prop :=
  ∀ (s : State) (w : CommandWord) (rest : List HostAction), s.Inv → s.hostActions = .present w :: rest →
    ∃ t r, step s = .next t ∧ t.responses = s.responses ++ [r] ∧ t.hostActions = rest

/-! ## Whole-machine properties -/

/-- R56, R57: under the invariant every access of a step on the memory port is naturally aligned and lies inside the
live buffer. -/
def Obligations.AccessesStayInTheLiveBuffer : Prop :=
  ∀ s t : State, s.Inv → step s = .next t →
    ∃ events, t.memPort = s.memPort ++ events ∧
      ∀ e ∈ events, e.aligned ∧ t.unit = .live ∧ t.base.toNat ≤ e.range.1 ∧
        e.range.1 + e.range.2 ≤ t.base.toNat + t.byteLength.toNat ∧
        t.base.toNat + t.byteLength.toNat ≤ t.config.memBytes

/-- R35: while a filter lives, its geometry stays and a bit of its buffer changes only from 0 to 1, and only by an
`INSERT`. -/
def Obligations.BufferBitsOnlyGoUp : Prop :=
  ∀ (s t : State) (act : HostAction) (rest : List HostAction),
    s.Inv → s.unit = .live → s.hostActions = act :: rest → act.keepsFilter → step s = .next t →
    t.unit = .live ∧ t.base = s.base ∧ t.byteLength = s.byteLength ∧ t.bucketCount = s.bucketCount ∧
    (∀ x, s.inLiveBuffer x → ∀ i, (s.mem.peek x).getLsbD i = true → (t.mem.peek x).getLsbD i = true) ∧
    ((¬ ∃ w h, act = .present w ∧ decode w = .ok (.insert h)) →
      ∀ x, s.inLiveBuffer x → t.mem.peek x = s.mem.peek x)

/-- R134 (b): no false negatives: after `INSERT h`, and after any run with neither reset nor `RELEASE`, `CONTAINS h`
answers 1. -/
def Obligations.NoFalseNegatives : Prop :=
  ∀ (s s1 s2 : State) (h : Word64) (k : Nat),
    s.Inv → s.unit = .live → exec (.insert h) s = .next s1 → (∀ act ∈ s1.hostActions, act.keepsFilter) →
    Sys2Proof.core.run k s1 = .next s2 →
    ∃ t, exec (.contains h) s2 = .next t ∧ t.hit = true ∧
      t.responses = s2.responses ++ [{ code := .ok, data := 1 }]

/-- R134 (c): a second `INSERT` of the same hash answers 1 and leaves memory as the first left it. -/
def Obligations.SecondInsertFindsTheFirst : Prop :=
  ∀ (s s1 : State) (h : Word64), s.unit = .live → s.mem.wf → exec (.insert h) s = .next s1 →
    ∃ s2, exec (.insert h) s1 = .next s2 ∧ s2.mem = s1.mem ∧ s2.hit = true ∧
      s2.responses = s1.responses ++ [{ code := .ok, data := 1 }]

/-- R134 (d), (e): on the filter a `NEW` just made, the first `INSERT` and any `CONTAINS` answer 0, for every hash. -/
def Obligations.FreshFilterHoldsNothing : Prop :=
  ∀ (s t : State) (bitsPerKey expectedKeys : BitVec 32) (base h : Word64),
    s.unit = .empty → exec (.new bitsPerKey expectedKeys base) s = .next t → t.unit = .live →
    (∃ u, exec (.insert h) t = .next u ∧ u.hit = false ∧
      u.responses = t.responses ++ [{ code := .ok, data := 0 }]) ∧
    (∃ u, exec (.contains h) t = .next u ∧ u.hit = false ∧
      u.responses = t.responses ++ [{ code := .ok, data := 0 }])

/-- R149 (d), R116 (b): a hash with the bucket index and the low half of an inserted one is answered 1. -/
def Obligations.SharedBucketAndMaskAnswersOne : Prop :=
  ∀ (s s1 : State) (h h' : Word64), s.unit = .live → s.mem.wf → exec (.insert h) s = .next s1 →
    bucketIndex h' s.bucketCount = bucketIndex h s.bucketCount → hashLo h' = hashLo h →
    ∃ t, exec (.contains h') s1 = .next t ∧ t.hit = true ∧ t.mem = s1.mem ∧
      t.responses = s1.responses ++ [{ code := .ok, data := 1 }]

/-- R9, R123: a run shows the same on either backend: outcome, responses, registers and memory, as long as no command
reads `STATUS`. -/
def Obligations.RunsDoNotDependOnTheBackend : Prop :=
  ∀ (k : Nat) (s : State) (b : Backend), (∀ act ∈ s.hostActions, act.blindToBackend) →
    viewOutcome State.backendBlind (Sys2Proof.core.run k (s.withBackend b)) =
      viewOutcome State.backendBlind (Sys2Proof.core.run k s)

/-- R57, R38: the unit never reads a byte outside the live buffer, nor the old contents of a buffer `NEW` fills: two
states that differ only in such bytes step alike and differ only in such bytes again. -/
def Obligations.MemoryOutsideTheBufferIsNeverRead : Prop :=
  ∀ (s t : State) (m' : Memory), s.Inv → ({ s with mem := m' } : State).MemoryGood →
    (∀ x, s.inLiveBuffer x → m'.peek x = s.mem.peek x) → step s = .next t →
    ∃ m'', step { s with mem := m' } = .next { t with mem := m'' } ∧
      ∀ x, t.inLiveBuffer x → m''.peek x = t.mem.peek x
end

