-- ==== Sys2Proof/Laws/Decode.lean ====
section
/-! SUPPORT. What the decoder can answer, said once. -/

namespace Sys2Proof

/-- The fields a word must have to decode to a command. -/
abbrev decodesTo (w : CommandWord) : Instr → Prop
  | .new bitsPerKey expectedKeys base =>
    opField w = 0x01 ∧ (aField w).extractLsb' 32 32 = bitsPerKey ∧ (aField w).extractLsb' 0 32 = expectedKeys ∧
      bField w = base
  | .insert hash => opField w = 0x02 ∧ aField w = hash ∧ bField w = 0
  | .contains hash => opField w = 0x03 ∧ aField w = hash ∧ bField w = 0
  | .release => opField w = 0x04 ∧ aField w = 0 ∧ bField w = 0
  | .rdcsr csr => opField w = 0x05 ∧ aField w = csr ∧ csr ≤ 4 ∧ bField w = 0

theorem decodesTo_of_decode {w : CommandWord} {i : Instr} (h : decode w = .ok i) : decodesTo w i := by
  unfold decode at h
  simp only at h
  split at h
  · cases h; exact ⟨by assumption, rfl, rfl, rfl⟩
  split at h
  · split at h <;> cases h; exact ⟨by assumption, rfl, by assumption⟩
  split at h
  · split at h <;> cases h; exact ⟨by assumption, rfl, by assumption⟩
  split at h
  · split at h
    · next hz => cases h; exact ⟨by assumption, hz.1, hz.2⟩
    · cases h
  split at h
  · split at h
    · cases h
    · next hb =>
      split at h <;> cases h
      exact ⟨by assumption, rfl, by assumption, by simpa using hb⟩
  · cases h

theorem decode_of_decodesTo {w : CommandWord} {i : Instr} (h : decodesTo w i) : decode w = .ok i := by
  cases i with
  | new b k base => obtain ⟨h1, rfl, rfl, rfl⟩ := h; simp [decode, h1]
  | insert x => obtain ⟨h1, rfl, h3⟩ := h; simp [decode, h1, h3]
  | contains x => obtain ⟨h1, rfl, h3⟩ := h; simp [decode, h1, h3]
  | release => obtain ⟨h1, h2, h3⟩ := h; simp [decode, h1, h2, h3]
  | rdcsr n => obtain ⟨h1, rfl, h3, h4⟩ := h; simp [decode, h1, h4]; exact h3

/-- A word decodes to a command iff its fields say so. -/
theorem decode_eq_ok {w : CommandWord} {i : Instr} : decode w = .ok i ↔ decodesTo w i :=
  ⟨decodesTo_of_decode, decode_of_decodesTo⟩

/-- The register numbers, one by one (R24). -/
theorem csr_le_four {n : Word64} (h : n ≤ 4) : n = 0 ∨ n = 1 ∨ n = 2 ∨ n = 3 ∨ n = 4 := by
  have h : n.toNat ≤ 4 := h
  rcases (by omega : n.toNat = 0 ∨ n.toNat = 1 ∨ n.toNat = 2 ∨ n.toNat = 3 ∨ n.toNat = 4) with h | h | h | h | h
  · exact .inl (BitVec.eq_of_toNat_eq h)
  · exact .inr (.inl (BitVec.eq_of_toNat_eq h))
  · exact .inr (.inr (.inl (BitVec.eq_of_toNat_eq h)))
  · exact .inr (.inr (.inr (.inl (BitVec.eq_of_toNat_eq h))))
  · exact .inr (.inr (.inr (.inr (BitVec.eq_of_toNat_eq h))))

end Sys2Proof
end

