-- ==== Sys2Proof/Laws/Memory.lean ====
section
/-! SUPPORT. Memory: what a read gives after a write, and that every memory operation keeps the canonical form. -/

namespace Sys2Proof.Machine

/-! ### One byte -/

theorem Memory.peek_of_unlisted {m : Memory} {a : Nat} (h : ∀ x ∈ m, x.1 ≠ a) : m.peek a = unlistedByte := by
  induction m with
  | nil => rfl
  | cons x rest ih =>
    have hx : x.1 ≠ a := h x (by simp)
    simpa [Memory.peek, hx] using ih fun y hy => h y (by simp [hy])

theorem Memory.peek_cons (b : Nat) (w : Byte) (m : Memory) (a : Nat) :
    Memory.peek ((b, w) :: m) a = if b = a then w else m.peek a := rfl

theorem Memory.wf_nil : Memory.wf [] := by simp [Memory.wf]

theorem Memory.wf_cons {x : Host.Cell} {m : Memory} :
    Memory.wf (x :: m) ↔ (∀ y ∈ m, x.1 < y.1) ∧ x.2 ≠ unlistedByte ∧ Memory.wf m := by
  simp only [Memory.wf, List.pairwise_cons, List.forall_mem_cons]
  tauto

theorem Memory.mem_poke {m : Memory} {a : Nat} {v : Byte} {x : Host.Cell} (h : x ∈ m.poke a v) :
    x ∈ m ∨ x = (a, v) := by
  induction m with
  | nil =>
    unfold Memory.poke at h
    split at h <;> simp_all
  | cons y rest ih =>
    unfold Memory.poke at h
    split at h
    · rcases List.mem_cons.1 h with h | h
      · exact .inl (by simp [h])
      · exact (ih h).imp_left fun h => by simp [h]
    · split at h <;> split at h <;> simp_all <;> tauto

theorem Memory.poke_wf {m : Memory} (h : m.wf) (a : Nat) (v : Byte) : (m.poke a v).wf := by
  induction m with
  | nil =>
    unfold Memory.poke
    split
    · exact Memory.wf_nil
    · rw [Memory.wf_cons]
      exact ⟨by simp, by assumption, Memory.wf_nil⟩
  | cons y rest ih =>
    obtain ⟨hlt, hne, hrest⟩ := Memory.wf_cons.1 h
    unfold Memory.poke
    split
    case isTrue hya =>
      refine Memory.wf_cons.2 ⟨fun x hx => ?_, hne, ih hrest⟩
      rcases Memory.mem_poke hx with hx | rfl
      · exact hlt x hx
      · exact hya
    case isFalse hya =>
      split
      case isTrue heq =>
        split
        · exact hrest
        · exact Memory.wf_cons.2 ⟨fun x hx => heq ▸ hlt x hx, by assumption, hrest⟩
      case isFalse hneq =>
        split
        · exact h
        · refine Memory.wf_cons.2 ⟨fun x hx => ?_, by assumption, h⟩
          rcases List.mem_cons.1 hx with rfl | hx
          · simp only; omega
          · have := hlt x hx
            simp only at *; omega

theorem Memory.peek_poke {m : Memory} (h : m.wf) (a : Nat) (v : Byte) (x : Nat) :
    (m.poke a v).peek x = if x = a then v else m.peek x := by
  induction m with
  | nil =>
    unfold Memory.poke
    split
    · simp_all [Memory.peek]
    · simp only [Memory.peek_cons, eq_comm]
  | cons y rest ih =>
    obtain ⟨hlt, hne, hrest⟩ := Memory.wf_cons.1 h
    obtain ⟨b, w⟩ := y
    simp only at hlt
    have hgt : ∀ z, z ≤ b → Memory.peek rest z = unlistedByte := fun z hz =>
      Memory.peek_of_unlisted fun y hy => by have := hlt y hy; omega
    unfold Memory.poke
    split
    case isTrue hba =>
      rw [Memory.peek_cons, Memory.peek_cons, ih hrest]
      grind
    case isFalse hba =>
      split
      case isTrue heq =>
        split <;> grind [Memory.peek_cons]
      case isFalse hneq =>
        split <;> grind [Memory.peek_cons]

/-- Two memories in canonical form that read alike are the same data. -/
theorem Memory.ext_of_wf {m m' : Memory} (h : m.wf) (h' : m'.wf) (heq : ∀ a, m.peek a = m'.peek a) : m = m' := by
  induction m generalizing m' with
  | nil =>
    cases m' with
    | nil => rfl
    | cons y rest =>
      have := heq y.1
      simp only [Memory.peek, if_true] at this
      exact absurd this.symm (Memory.wf_cons.1 h').2.1
  | cons x rest ih =>
    obtain ⟨hlt, hne, hrest⟩ := Memory.wf_cons.1 h
    cases m' with
    | nil =>
      have := heq x.1
      simp only [Memory.peek, if_true] at this
      exact absurd this hne
    | cons y rest' =>
      obtain ⟨hlt', hne', hrest'⟩ := Memory.wf_cons.1 h'
      obtain ⟨a, v⟩ := x
      obtain ⟨b, w⟩ := y
      simp only at hlt hlt' hne hne'
      have hz : ∀ z, z ≤ a → Memory.peek rest z = unlistedByte := fun z hz =>
        Memory.peek_of_unlisted fun y hy => by have := hlt y hy; omega
      have hz' : ∀ z, z ≤ b → Memory.peek rest' z = unlistedByte := fun z hz =>
        Memory.peek_of_unlisted fun y hy => by have := hlt' y hy; omega
      have ha := heq a
      have hb := heq b
      simp only [Memory.peek_cons] at ha hb heq
      have hab : a = b := by
        rcases Nat.lt_trichotomy a b with hlt2 | heq2 | hlt2
        · have h2 : b ≠ a := by omega
          simp only [if_true, h2, if_false, hz' a (by omega)] at ha
          exact absurd ha hne
        · exact heq2
        · have h2 : a ≠ b := by omega
          simp only [if_true, h2, if_false, hz b (by omega)] at hb
          exact absurd hb.symm hne'
      subst hab
      simp only [if_true] at ha
      subst ha
      congr 1
      refine ih hrest hrest' fun z => ?_
      by_cases hza : a = z
      · subst hza
        rw [hz a (le_refl _), hz' a (le_refl _)]
      · simpa [hza] using heq z

/-! ### Several bytes -/

theorem Memory.store_wf {w : Nat} {m : Memory} (h : m.wf) (addr : Nat) (v : BitVec w) (n : Nat) :
    (m.store addr v n).wf := by
  induction n with
  | zero => exact h
  | succ n ih => exact Memory.poke_wf ih _ _

/-- A store of `n` bytes changes those `n` bytes and no other. -/
theorem Memory.peek_store {w : Nat} {m : Memory} (h : m.wf) (addr : Nat) (v : BitVec w) (n x : Nat) :
    (m.store addr v n).peek x = if addr ≤ x ∧ x < addr + n then byteOf v (x - addr) else m.peek x := by
  induction n with
  | zero => rw [if_neg (by omega)]; rfl
  | succ n ih =>
    rw [Memory.store, Memory.peek_poke (Memory.store_wf h addr v n), ih]
    by_cases hx : x = addr + n
    · subst hx
      rw [if_pos rfl, if_pos (by omega), Nat.add_sub_cancel_left]
    · rw [if_neg hx]
      by_cases hin : addr ≤ x ∧ x < addr + n
      · rw [if_pos hin, if_pos (by omega)]
      · rw [if_neg hin, if_neg (by omega)]

/-- A load depends on the bytes it reads and on nothing else. -/
theorem Memory.load_congr (w : Nat) {m m' : Memory} {addr n : Nat}
    (h : ∀ j, j < n → m.peek (addr + j) = m'.peek (addr + j)) : m.load w addr n = m'.load w addr n := by
  induction n with
  | zero => rfl
  | succ n ih => rw [Memory.load, Memory.load, ih fun j hj => h j (by omega), h n (by omega)]

/-- Bit `p` of a loaded value is bit `p mod 8` of byte `p div 8`. -/
theorem Memory.getLsbD_load (w : Nat) (m : Memory) (addr n p : Nat) :
    (m.load w addr n).getLsbD p = (decide (p < w) && decide (p < 8 * n) && (m.peek (addr + p / 8)).getLsbD (p % 8)) := by
  induction n with
  | zero => simp [Memory.load]
  | succ n ih =>
    rw [Memory.load, BitVec.getLsbD_or, ih, BitVec.getLsbD_shiftLeft, BitVec.getLsbD_setWidth]
    by_cases hw : p < w
    · by_cases hlt : p < 8 * n
      · have hlt' : p < 8 * (n + 1) := by omega
        simp [hw, hlt, hlt']
      · by_cases hlt' : p < 8 * (n + 1)
        · have h1 : p / 8 = n := by omega
          have h2 : p - 8 * n = p % 8 := by omega
          have h3 : p % 8 < w := by omega
          simp [hw, hlt, hlt', h1, h2, h3]
        · have : (m.peek (addr + n)).getLsbD (p - 8 * n) = false :=
            BitVec.getLsbD_of_ge _ _ (by omega)
          simp [hw, hlt, hlt', this]
    · simp [hw]

/-- Byte `j` of a loaded value is the byte at `addr + j`. -/
theorem Memory.byteOf_load {w n j : Nat} (m : Memory) (addr : Nat) (hj : j < n) (hw : 8 * n ≤ w) :
    byteOf (m.load w addr n) j = m.peek (addr + j) := by
  apply BitVec.eq_of_getLsbD_eq
  intro i hi
  have h1 : (8 * j + i) / 8 = j := by omega
  have h2 : (8 * j + i) % 8 = i := by omega
  have h3 : 8 * j + i < w := by omega
  have h4 : 8 * j + i < 8 * n := by omega
  rw [byteOf, BitVec.getLsbD_extractLsb', Memory.getLsbD_load, h1, h2]
  simp [h3, h4, hi]

theorem Memory.mem_store {w : Nat} {m : Memory} {addr : Nat} {v : BitVec w} {n : Nat} {x : Host.Cell}
    (h : x ∈ m.store addr v n) : x ∈ m ∨ (addr ≤ x.1 ∧ x.1 < addr + n) := by
  induction n with
  | zero => exact .inl h
  | succ n ih =>
    rcases Memory.mem_poke h with h | rfl
    · exact (ih h).imp_right fun h => ⟨h.1, by omega⟩
    · exact .inr ⟨by simp, by simp⟩

/-! ### The zero-fill -/

theorem Memory.mem_zeroFill {m : Memory} {addr bytes : Nat} {x : Host.Cell} (h : x ∈ m.zeroFill addr bytes) :
    x ∈ m := (List.mem_filter.1 h).1

theorem Memory.zeroFill_wf {m : Memory} (h : m.wf) (addr bytes : Nat) : (m.zeroFill addr bytes).wf :=
  ⟨h.1.filter _, fun x hx => h.2 x (Memory.mem_zeroFill hx)⟩

/-- The zero-fill makes its bytes 0 and changes no other. -/
theorem Memory.peek_zeroFill (m : Memory) (addr bytes x : Nat) :
    (m.zeroFill addr bytes).peek x = if addr ≤ x ∧ x < addr + bytes then 0 else m.peek x := by
  induction m with
  | nil => simp [Memory.zeroFill, Memory.peek, unlistedByte]
  | cons y rest ih =>
    obtain ⟨b, w⟩ := y
    by_cases hb : b < addr ∨ addr + bytes ≤ b
    · have : Memory.zeroFill ((b, w) :: rest) addr bytes = (b, w) :: Memory.zeroFill rest addr bytes := by
        simp [Memory.zeroFill, hb]
      rw [this, Memory.peek_cons, Memory.peek_cons, ih]
      grind
    · have : Memory.zeroFill ((b, w) :: rest) addr bytes = Memory.zeroFill rest addr bytes := by
        simp only [Memory.zeroFill, List.filter_cons]
        rw [if_neg (by simpa using hb)]
      rw [this, ih, Memory.peek_cons]
      grind

/-! ### The memory port's primitives -/

theorem memRead_eq_some {w : Nat} {c : Config} {m : Memory} {addr : Nat} {v : BitVec w} :
    memRead w c m addr = some v ↔ addr + w / 8 ≤ c.memBytes ∧ m.load w addr (w / 8) = v := by
  simp [memRead]

theorem memWrite_eq_some {w : Nat} {c : Config} {m m' : Memory} {addr : Nat} {v : BitVec w} :
    memWrite c m addr v = some m' ↔ addr + w / 8 ≤ c.memBytes ∧ m.store addr v (w / 8) = m' := by
  simp [memWrite]

end Sys2Proof.Machine
end

