-- ==== Sys2Proof/Laws/State.lean ====
section
/-! SUPPORT. Each named update of the state, field by field. -/

namespace Sys2Proof.Machine

/-! ### `respond` -/

@[simp] theorem respond_config (s : State) (code : Code) (data : Word64) :
    (respond s code data).config = s.config := rfl

@[simp] theorem respond_unit (s : State) (code : Code) (data : Word64) :
    (respond s code data).unit = s.unit := rfl

@[simp] theorem respond_base (s : State) (code : Code) (data : Word64) :
    (respond s code data).base = s.base := rfl

@[simp] theorem respond_byteLength (s : State) (code : Code) (data : Word64) :
    (respond s code data).byteLength = s.byteLength := rfl

@[simp] theorem respond_bucketCount (s : State) (code : Code) (data : Word64) :
    (respond s code data).bucketCount = s.bucketCount := rfl

@[simp] theorem respond_hit (s : State) (code : Code) (data : Word64) :
    (respond s code data).hit = s.hit := rfl

@[simp] theorem respond_mem (s : State) (code : Code) (data : Word64) :
    (respond s code data).mem = s.mem := rfl

@[simp] theorem respond_hostActions (s : State) (code : Code) (data : Word64) :
    (respond s code data).hostActions = s.hostActions := rfl

@[simp] theorem respond_responses (s : State) (code : Code) (data : Word64) :
    (respond s code data).responses = s.responses ++ [{ code := code, data := data }] := rfl

@[simp] theorem respond_memPort (s : State) (code : Code) (data : Word64) :
    (respond s code data).memPort = s.memPort := rfl

/-! ### `raiseFatal` -/

@[simp] theorem raiseFatal_config (s : State) (data : Word64) :
    (raiseFatal s data).config = s.config := rfl

@[simp] theorem raiseFatal_unit (s : State) (data : Word64) :
    (raiseFatal s data).unit = .fault := rfl

@[simp] theorem raiseFatal_base (s : State) (data : Word64) :
    (raiseFatal s data).base = s.base := rfl

@[simp] theorem raiseFatal_byteLength (s : State) (data : Word64) :
    (raiseFatal s data).byteLength = s.byteLength := rfl

@[simp] theorem raiseFatal_bucketCount (s : State) (data : Word64) :
    (raiseFatal s data).bucketCount = s.bucketCount := rfl

@[simp] theorem raiseFatal_hit (s : State) (data : Word64) :
    (raiseFatal s data).hit = s.hit := rfl

@[simp] theorem raiseFatal_mem (s : State) (data : Word64) :
    (raiseFatal s data).mem = s.mem := rfl

@[simp] theorem raiseFatal_hostActions (s : State) (data : Word64) :
    (raiseFatal s data).hostActions = s.hostActions := rfl

@[simp] theorem raiseFatal_responses (s : State) (data : Word64) :
    (raiseFatal s data).responses = s.responses ++ [{ code := .fatal, data := data }] := rfl

@[simp] theorem raiseFatal_memPort (s : State) (data : Word64) :
    (raiseFatal s data).memPort = s.memPort := rfl

/-! ### `resetUnit` -/

@[simp] theorem resetUnit_config (s : State) :
    (resetUnit s).config = s.config := rfl

@[simp] theorem resetUnit_unit (s : State) :
    (resetUnit s).unit = .empty := rfl

@[simp] theorem resetUnit_base (s : State) :
    (resetUnit s).base = 0 := rfl

@[simp] theorem resetUnit_byteLength (s : State) :
    (resetUnit s).byteLength = 0 := rfl

@[simp] theorem resetUnit_bucketCount (s : State) :
    (resetUnit s).bucketCount = 0 := rfl

@[simp] theorem resetUnit_hit (s : State) :
    (resetUnit s).hit = false := rfl

@[simp] theorem resetUnit_mem (s : State) :
    (resetUnit s).mem = s.mem := rfl

@[simp] theorem resetUnit_hostActions (s : State) :
    (resetUnit s).hostActions = s.hostActions := rfl

@[simp] theorem resetUnit_responses (s : State) :
    (resetUnit s).responses = s.responses := rfl

@[simp] theorem resetUnit_memPort (s : State) :
    (resetUnit s).memPort = s.memPort := rfl

/-! ### `openFilter` -/

@[simp] theorem openFilter_config (s : State) (base : Word64) (bytes buckets : Nat) :
    (openFilter s base bytes buckets).config = s.config := rfl

@[simp] theorem openFilter_unit (s : State) (base : Word64) (bytes buckets : Nat) :
    (openFilter s base bytes buckets).unit = .live := rfl

@[simp] theorem openFilter_base (s : State) (base : Word64) (bytes buckets : Nat) :
    (openFilter s base bytes buckets).base = base := rfl

@[simp] theorem openFilter_byteLength (s : State) (base : Word64) (bytes buckets : Nat) :
    (openFilter s base bytes buckets).byteLength = BitVec.ofNat 64 bytes := rfl

@[simp] theorem openFilter_bucketCount (s : State) (base : Word64) (bytes buckets : Nat) :
    (openFilter s base bytes buckets).bucketCount = BitVec.ofNat 32 buckets := rfl

@[simp] theorem openFilter_hit (s : State) (base : Word64) (bytes buckets : Nat) :
    (openFilter s base bytes buckets).hit = false := rfl

@[simp] theorem openFilter_mem (s : State) (base : Word64) (bytes buckets : Nat) :
    (openFilter s base bytes buckets).mem = s.mem := rfl

@[simp] theorem openFilter_hostActions (s : State) (base : Word64) (bytes buckets : Nat) :
    (openFilter s base bytes buckets).hostActions = s.hostActions := rfl

@[simp] theorem openFilter_responses (s : State) (base : Word64) (bytes buckets : Nat) :
    (openFilter s base bytes buckets).responses = s.responses := rfl

@[simp] theorem openFilter_memPort (s : State) (base : Word64) (bytes buckets : Nat) :
    (openFilter s base bytes buckets).memPort = s.memPort := rfl

/-! ### `closeFilter` -/

@[simp] theorem closeFilter_config (s : State) :
    (closeFilter s).config = s.config := rfl

@[simp] theorem closeFilter_unit (s : State) :
    (closeFilter s).unit = .empty := rfl

@[simp] theorem closeFilter_base (s : State) :
    (closeFilter s).base = 0 := rfl

@[simp] theorem closeFilter_byteLength (s : State) :
    (closeFilter s).byteLength = 0 := rfl

@[simp] theorem closeFilter_bucketCount (s : State) :
    (closeFilter s).bucketCount = 0 := rfl

@[simp] theorem closeFilter_hit (s : State) :
    (closeFilter s).hit = false := rfl

@[simp] theorem closeFilter_mem (s : State) :
    (closeFilter s).mem = s.mem := rfl

@[simp] theorem closeFilter_hostActions (s : State) :
    (closeFilter s).hostActions = s.hostActions := rfl

@[simp] theorem closeFilter_responses (s : State) :
    (closeFilter s).responses = s.responses := rfl

@[simp] theorem closeFilter_memPort (s : State) :
    (closeFilter s).memPort = s.memPort := rfl

/-! ### `accessMemory` -/

@[simp] theorem accessMemory_config (s : State) (m : Memory) (events : List MemEvent) :
    (accessMemory s m events).config = s.config := rfl

@[simp] theorem accessMemory_unit (s : State) (m : Memory) (events : List MemEvent) :
    (accessMemory s m events).unit = s.unit := rfl

@[simp] theorem accessMemory_base (s : State) (m : Memory) (events : List MemEvent) :
    (accessMemory s m events).base = s.base := rfl

@[simp] theorem accessMemory_byteLength (s : State) (m : Memory) (events : List MemEvent) :
    (accessMemory s m events).byteLength = s.byteLength := rfl

@[simp] theorem accessMemory_bucketCount (s : State) (m : Memory) (events : List MemEvent) :
    (accessMemory s m events).bucketCount = s.bucketCount := rfl

@[simp] theorem accessMemory_hit (s : State) (m : Memory) (events : List MemEvent) :
    (accessMemory s m events).hit = s.hit := rfl

@[simp] theorem accessMemory_mem (s : State) (m : Memory) (events : List MemEvent) :
    (accessMemory s m events).mem = m := rfl

@[simp] theorem accessMemory_hostActions (s : State) (m : Memory) (events : List MemEvent) :
    (accessMemory s m events).hostActions = s.hostActions := rfl

@[simp] theorem accessMemory_responses (s : State) (m : Memory) (events : List MemEvent) :
    (accessMemory s m events).responses = s.responses := rfl

@[simp] theorem accessMemory_memPort (s : State) (m : Memory) (events : List MemEvent) :
    (accessMemory s m events).memPort = s.memPort ++ events := rfl

/-! ### `reportStatus` -/

@[simp] theorem reportStatus_config (s : State) (b : Bool) :
    (reportStatus s b).config = s.config := rfl

@[simp] theorem reportStatus_unit (s : State) (b : Bool) :
    (reportStatus s b).unit = s.unit := rfl

@[simp] theorem reportStatus_base (s : State) (b : Bool) :
    (reportStatus s b).base = s.base := rfl

@[simp] theorem reportStatus_byteLength (s : State) (b : Bool) :
    (reportStatus s b).byteLength = s.byteLength := rfl

@[simp] theorem reportStatus_bucketCount (s : State) (b : Bool) :
    (reportStatus s b).bucketCount = s.bucketCount := rfl

@[simp] theorem reportStatus_hit (s : State) (b : Bool) :
    (reportStatus s b).hit = b := rfl

@[simp] theorem reportStatus_mem (s : State) (b : Bool) :
    (reportStatus s b).mem = s.mem := rfl

@[simp] theorem reportStatus_hostActions (s : State) (b : Bool) :
    (reportStatus s b).hostActions = s.hostActions := rfl

@[simp] theorem reportStatus_responses (s : State) (b : Bool) :
    (reportStatus s b).responses = s.responses ++ [{ code := .ok, data := boolData b }] := rfl

@[simp] theorem reportStatus_memPort (s : State) (b : Bool) :
    (reportStatus s b).memPort = s.memPort := rfl

/-! ### `dropAction` -/

@[simp] theorem dropAction_config (s : State) :
    (dropAction s).config = s.config := rfl

@[simp] theorem dropAction_unit (s : State) :
    (dropAction s).unit = s.unit := rfl

@[simp] theorem dropAction_base (s : State) :
    (dropAction s).base = s.base := rfl

@[simp] theorem dropAction_byteLength (s : State) :
    (dropAction s).byteLength = s.byteLength := rfl

@[simp] theorem dropAction_bucketCount (s : State) :
    (dropAction s).bucketCount = s.bucketCount := rfl

@[simp] theorem dropAction_hit (s : State) :
    (dropAction s).hit = s.hit := rfl

@[simp] theorem dropAction_mem (s : State) :
    (dropAction s).mem = s.mem := rfl

@[simp] theorem dropAction_hostActions (s : State) :
    (dropAction s).hostActions = s.hostActions.tail := rfl

@[simp] theorem dropAction_responses (s : State) :
    (dropAction s).responses = s.responses := rfl

@[simp] theorem dropAction_memPort (s : State) :
    (dropAction s).memPort = s.memPort := rfl

/-! ### `withBackend` -/

@[simp] theorem withBackend_config (s : State) (b : Backend) :
    (s.withBackend b).config = { s.config with backend := b } := rfl

@[simp] theorem withBackend_unit (s : State) (b : Backend) :
    (s.withBackend b).unit = s.unit := rfl

@[simp] theorem withBackend_base (s : State) (b : Backend) :
    (s.withBackend b).base = s.base := rfl

@[simp] theorem withBackend_byteLength (s : State) (b : Backend) :
    (s.withBackend b).byteLength = s.byteLength := rfl

@[simp] theorem withBackend_bucketCount (s : State) (b : Backend) :
    (s.withBackend b).bucketCount = s.bucketCount := rfl

@[simp] theorem withBackend_hit (s : State) (b : Backend) :
    (s.withBackend b).hit = s.hit := rfl

@[simp] theorem withBackend_mem (s : State) (b : Backend) :
    (s.withBackend b).mem = s.mem := rfl

@[simp] theorem withBackend_hostActions (s : State) (b : Backend) :
    (s.withBackend b).hostActions = s.hostActions := rfl

@[simp] theorem withBackend_responses (s : State) (b : Backend) :
    (s.withBackend b).responses = s.responses := rfl

@[simp] theorem withBackend_memPort (s : State) (b : Backend) :
    (s.withBackend b).memPort = s.memPort := rfl

/-! ### `backendBlind` -/

@[simp] theorem backendBlind_config (s : State) :
    (s.backendBlind).config = { s.config with backend := .v256 } := rfl

@[simp] theorem backendBlind_unit (s : State) :
    (s.backendBlind).unit = s.unit := rfl

@[simp] theorem backendBlind_base (s : State) :
    (s.backendBlind).base = s.base := rfl

@[simp] theorem backendBlind_byteLength (s : State) :
    (s.backendBlind).byteLength = s.byteLength := rfl

@[simp] theorem backendBlind_bucketCount (s : State) :
    (s.backendBlind).bucketCount = s.bucketCount := rfl

@[simp] theorem backendBlind_hit (s : State) :
    (s.backendBlind).hit = s.hit := rfl

@[simp] theorem backendBlind_mem (s : State) :
    (s.backendBlind).mem = s.mem := rfl

@[simp] theorem backendBlind_hostActions (s : State) :
    (s.backendBlind).hostActions = s.hostActions := rfl

@[simp] theorem backendBlind_responses (s : State) :
    (s.backendBlind).responses = s.responses := rfl

@[simp] theorem backendBlind_memPort (s : State) :
    (s.backendBlind).memPort = [] := rfl

/-! ### `withFetchWord` -/

@[simp] theorem withFetchWord_config (s : State) (nbits w : Nat) :
    (s.withFetchWord nbits w).config = s.config := rfl

@[simp] theorem withFetchWord_unit (s : State) (nbits w : Nat) :
    (s.withFetchWord nbits w).unit = s.unit := rfl

@[simp] theorem withFetchWord_base (s : State) (nbits w : Nat) :
    (s.withFetchWord nbits w).base = s.base := rfl

@[simp] theorem withFetchWord_byteLength (s : State) (nbits w : Nat) :
    (s.withFetchWord nbits w).byteLength = s.byteLength := rfl

@[simp] theorem withFetchWord_bucketCount (s : State) (nbits w : Nat) :
    (s.withFetchWord nbits w).bucketCount = s.bucketCount := rfl

@[simp] theorem withFetchWord_hit (s : State) (nbits w : Nat) :
    (s.withFetchWord nbits w).hit = s.hit := rfl

@[simp] theorem withFetchWord_mem (s : State) (nbits w : Nat) :
    (s.withFetchWord nbits w).mem = s.mem := rfl

@[simp] theorem withFetchWord_hostActions (s : State) (nbits w : Nat) :
    (s.withFetchWord nbits w).hostActions = .present (tableCommandWord nbits w) :: s.hostActions := rfl

@[simp] theorem withFetchWord_responses (s : State) (nbits w : Nat) :
    (s.withFetchWord nbits w).responses = s.responses := rfl

@[simp] theorem withFetchWord_memPort (s : State) (nbits w : Nat) :
    (s.withFetchWord nbits w).memPort = s.memPort := rfl

/-! ### `resetOf` -/

@[simp] theorem resetOf_config (c : Config) :
    (State.resetOf c).config = c := rfl

@[simp] theorem resetOf_unit (c : Config) :
    (State.resetOf c).unit = .empty := rfl

@[simp] theorem resetOf_base (c : Config) :
    (State.resetOf c).base = 0 := rfl

@[simp] theorem resetOf_byteLength (c : Config) :
    (State.resetOf c).byteLength = 0 := rfl

@[simp] theorem resetOf_bucketCount (c : Config) :
    (State.resetOf c).bucketCount = 0 := rfl

@[simp] theorem resetOf_hit (c : Config) :
    (State.resetOf c).hit = false := rfl

@[simp] theorem resetOf_mem (c : Config) :
    (State.resetOf c).mem = [] := rfl

@[simp] theorem resetOf_hostActions (c : Config) :
    (State.resetOf c).hostActions = [] := rfl

@[simp] theorem resetOf_responses (c : Config) :
    (State.resetOf c).responses = [] := rfl

@[simp] theorem resetOf_memPort (c : Config) :
    (State.resetOf c).memPort = [] := rfl

end Sys2Proof.Machine
end

