-- ==== Sys2Proof/Laws/Ops.lean ====
section
/-! SUPPORT. What each shared operation can do, said once: admission, the other agents' accesses, the kernels, and a
step. -/

namespace Sys2Proof.Machine

/-! ### Admission and the other agents -/

theorem performIn_fault {legal : UnitState} {s : State} {p : Host.Outcome State Fault Refusal} (h : s.unit = .fault) :
    performIn legal s p = .next (respond s .fatal 0) := by simp [performIn, h]

theorem performIn_wrong {legal : UnitState} {s : State} {p : Host.Outcome State Fault Refusal} (h : s.unit ≠ .fault)
    (h' : s.unit ≠ legal) : performIn legal s p = .next (respond s .errState 0) := by simp [performIn, h, h']

theorem performIn_legal {legal : UnitState} {s : State} {p : Host.Outcome State Fault Refusal} (h : s.unit ≠ .fault)
    (h' : s.unit = legal) : performIn legal s p = p := by subst h'; simp [performIn, h]

/-- A command that answers a next state was answered `FATAL`, answered `ERR_STATE`, or performed. -/
theorem performIn_eq_next {legal : UnitState} {s t : State} {p : Host.Outcome State Fault Refusal}
    (h : performIn legal s p = .next t) :
    (s.unit = .fault ∧ t = respond s .fatal 0) ∨
      (s.unit ≠ .fault ∧ s.unit ≠ legal ∧ t = respond s .errState 0) ∨
      (s.unit ≠ .fault ∧ s.unit = legal ∧ p = .next t) := by
  unfold performIn at h
  split at h
  · exact .inl ⟨by assumption, by cases h; rfl⟩
  · split at h
    · exact .inr (.inl ⟨by assumption, by assumption, by cases h; rfl⟩)
    · exact .inr (.inr ⟨by assumption, by tauto, h⟩)

theorem hostWrite_eq_next {addr : Word64} {v : Byte} {s t : State} :
    hostWrite addr v s = .next t ↔ addr.toNat < s.config.memBytes ∧ ¬ s.inLiveBuffer addr.toNat ∧
      t = { s with mem := s.mem.poke addr.toNat v } := by
  unfold hostWrite
  split
  · simp; omega
  · split
    · simp only [reduceCtorEq, false_iff]; tauto
    · simp only [Host.Outcome.next.injEq]
      constructor
      · rintro rfl; exact ⟨by omega, by assumption, rfl⟩
      · rintro ⟨-, -, rfl⟩; rfl

theorem hostRead_eq_next {addr : Word64} {s t : State} :
    hostRead addr s = .next t ↔ addr.toNat < s.config.memBytes ∧ ¬ s.inLiveBuffer addr.toNat ∧ t = s := by
  unfold hostRead
  split
  · simp; omega
  · split
    · simp only [reduceCtorEq, false_iff]; tauto
    · simp only [Host.Outcome.next.injEq]
      constructor
      · rintro rfl; exact ⟨by omega, by assumption, rfl⟩
      · rintro ⟨-, -, rfl⟩; rfl

/-! ### The selected bucket -/

/-- The bucket index is below the bucket count (R112), so the bucket lies in the buffer (R57). -/
theorem bucketIndex_toNat (h : Word64) (n : BitVec 32) :
    (bucketIndex h n).toNat = (hashHi h).toNat * n.toNat / 2 ^ 32 := by
  have hh := (hashHi h).isLt
  have hn := n.isLt
  have hlt : (hashHi h).toNat * n.toNat < 2 ^ 64 := by
    calc (hashHi h).toNat * n.toNat < 2 ^ 32 * 2 ^ 32 := Nat.mul_lt_mul'' hh hn
      _ = 2 ^ 64 := by norm_num
  have hhi : (hashHi h).toNat < 2 ^ 64 := by omega
  have hn' : n.toNat < 2 ^ 64 := by omega
  simp only [bucketIndex, mul32wide, BitVec.extractLsb'_toNat, BitVec.toNat_ushiftRight, BitVec.toNat_mul,
    BitVec.toNat_setWidth, Nat.shiftRight_zero]
  rw [Nat.mod_eq_of_lt hhi, Nat.mod_eq_of_lt hn', Nat.mod_eq_of_lt hlt, Nat.shiftRight_eq_div_pow]
  exact Nat.mod_eq_of_lt (by omega)

theorem bucketIndex_lt {h : Word64} {n : BitVec 32} (hn : 1 ≤ n.toNat) : (bucketIndex h n).toNat < n.toNat := by
  have hh := (hashHi h).isLt
  rw [bucketIndex_toNat]
  exact Nat.div_lt_of_lt_mul (Nat.mul_lt_mul_of_pos_right hh hn)

/-- Under the kernel precondition the selected bucket is 32-byte aligned and backed (R56, R57). -/
theorem bucketAddr_backed {c : Config} {base : Word64} {n : BitVec 32} (h : Word64) (hp : kernelPre c base n) :
    bucketAddr base (bucketIndex h n) % 32 = 0 ∧ base.toNat ≤ bucketAddr base (bucketIndex h n) ∧
      bucketAddr base (bucketIndex h n) + 32 ≤ base.toNat + 32 * n.toNat ∧
      base.toNat + 32 * n.toNat ≤ c.memBytes := by
  have := bucketIndex_lt (h := h) hp.2.2
  obtain ⟨h1, h2, h3⟩ := hp
  unfold bucketAddr
  omega

/-! ### Lanes -/

/-- Bit `p` of a lanewise vector is bit `p mod 32` of lane `p div 32`. -/
theorem getLsbD_joinLanes (w : Nat) (f : Nat → Lane) (n p : Nat) :
    (joinLanes w f n).getLsbD p = (decide (p < w) && decide (p < 32 * n) && (f (p / 32)).getLsbD (p % 32)) := by
  induction n with
  | zero => simp [joinLanes]
  | succ n ih =>
    rw [joinLanes, BitVec.getLsbD_or, ih, BitVec.getLsbD_shiftLeft, BitVec.getLsbD_setWidth]
    by_cases hw : p < w
    · by_cases hlt : p < 32 * n
      · have hlt' : p < 32 * (n + 1) := by omega
        simp [hw, hlt, hlt']
      · by_cases hlt' : p < 32 * (n + 1)
        · have h1 : p / 32 = n := by omega
          have h2 : p - 32 * n = p % 32 := by omega
          have h3 : p % 32 < w := by omega
          simp [hw, hlt, hlt', h1, h2, h3]
        · have : (f n).getLsbD (p - 32 * n) = false := BitVec.getLsbD_of_ge _ _ (by omega)
          simp [hw, hlt, hlt', this]
    · simp [hw]

/-- Lane `i` of the vector made of the lanes `f i` is `f i`. -/
theorem lane_lanewise {w i : Nat} (f : Nat → Lane) (hi : i < w / 32) : lane (lanewise w f) i = f i := by
  apply BitVec.eq_of_getLsbD_eq
  intro j hj
  rw [lane, BitVec.getLsbD_extractLsb', lanewise, getLsbD_joinLanes,
    show (32 * i + j) / 32 = i by omega, show (32 * i + j) % 32 = j by omega]
  simp [hj, show 32 * i + j < w by omega, show 32 * i + j < 32 * (w / 32) by omega]

/-- Vectors of whole lanes are equal when their lanes are. -/
theorem eq_of_lanes {w : Nat} {a b : BitVec w} (hw : w % 32 = 0) (h : ∀ i, i < w / 32 → lane a i = lane b i) :
    a = b := by
  apply BitVec.eq_of_getLsbD_eq
  intro p hp
  have := congrArg (fun v => v.getLsbD (p % 32)) (h (p / 32) (by omega))
  simpa [lane, BitVec.getLsbD_extractLsb', Nat.mod_lt, show 32 * (p / 32) + p % 32 = p by omega] using this

/-- Lane 0 of `x ‖ y` is the lane `y`. -/
theorem lane_append_zero {w : Nat} (x : BitVec w) (y : Lane) : lane (x ++ y) 0 = y := by
  apply BitVec.eq_of_getLsbD_eq
  intro j hj
  rw [lane, BitVec.getLsbD_extractLsb', BitVec.getLsbD_append]
  simp [hj]

/-- The lanes above lane 0 of `x ‖ y` are the lanes of `x`. -/
theorem lane_append_succ {w : Nat} (x : BitVec w) (y : Lane) (i : Nat) : lane (x ++ y) (i + 1) = lane x i := by
  apply BitVec.eq_of_getLsbD_eq
  intro j hj
  rw [lane, BitVec.getLsbD_extractLsb', BitVec.getLsbD_append, lane, BitVec.getLsbD_extractLsb']
  simp [hj, show ¬ 32 * (i + 1) + j < 32 by omega, show 32 * (i + 1) + j - 32 = 32 * i + j by omega]

theorem lane_self (x : Lane) : lane x 0 = x := by
  apply BitVec.eq_of_getLsbD_eq
  intro j hj
  simp [lane]

/-- Lane `i` of the mask is `lane_i` (R115). -/
theorem lane_mask (c : Config) (h : Word64) {i : Nat} (hi : i < 8) : lane (mask c h) i = maskLane c h i := by
  unfold mask
  interval_cases i <;> simp only [lane_append_zero, lane_append_succ, lane_self]

/-- Lane `i` of the register of salts is `SALT[i]` (R125). -/
theorem lane_salt256 (c : Config) {i : Nat} (hi : i < 8) : lane (salt256 c) i = c.saltLane i := by
  unfold salt256
  interval_cases i <;> simp only [lane_append_zero, lane_append_succ, lane_self]

theorem lane_saltLo (c : Config) {i : Nat} (hi : i < 4) : lane (saltLo c) i = c.saltLane i := by
  unfold saltLo
  interval_cases i <;> simp only [lane_append_zero, lane_append_succ, lane_self]

theorem lane_saltHi (c : Config) {i : Nat} (hi : i < 4) : lane (saltHi c) i = c.saltLane (i + 4) := by
  unfold saltHi
  interval_cases i <;> simp only [lane_append_zero, lane_append_succ, lane_self]

/-- Lane `i` of a mask register: 1 shifted by the exponent of that lane's salt (R126, R129). -/
theorem lane_maskRegister {w i : Nat} (salts : BitVec w) (h : Word64) (hi : i < w / 32) :
    lane (maskRegister salts h) i = 1#32 <<< (mul32lo (lane salts i) (hashLo h) >>> 27).toNat := by
  simp only [maskRegister, vsllv32, vsplat32, vsrl32, vmullo32]
  rw [lane_lanewise _ hi, lane_lanewise _ hi, lane_lanewise _ hi, lane_lanewise _ hi, lane_lanewise _ hi]

/-! ### The kernels -/

theorem vload_eq_some {w : Nat} {c : Config} {m : Memory} {addr : Nat} {v : BitVec w} :
    vload w c m addr = some v ↔ addr % (w / 8) = 0 ∧ addr + w / 8 ≤ c.memBytes ∧ m.load w addr (w / 8) = v := by
  simp [vload, memRead]

theorem vstore_eq_some {w : Nat} {c : Config} {m m' : Memory} {addr : Nat} {v : BitVec w} :
    vstore c m addr v = some m' ↔ addr % (w / 8) = 0 ∧ addr + w / 8 ≤ c.memBytes ∧ m.store addr v (w / 8) = m' := by
  simp [vstore, memWrite]

/-- What a `KernelContains` of the instance's backend can answer: one status, memory as it was, the reads of R59. -/
theorem kernelContains_eq {c : Config} {m : Memory} {base : Word64} {n : BitVec 32} {h : Word64}
    (hp : kernelPre c base n) :
    kernelContains c m base n h = some (
      let addr := bucketAddr base (bucketIndex h n)
      match c.backend with
      | .v256 =>
        { status := vtestc (m.load 256 addr 32) (maskRegister (salt256 c) h), mem := m, events := [.read addr 32] }
      | .v128p =>
        { status := vtestc (m.load 128 addr 16) (maskRegister (saltLo c) h) &&
            vtestc (m.load 128 (addr + 16) 16) (maskRegister (saltHi c) h)
          mem := m
          events := [.readHalves addr] }) := by
  obtain ⟨ha, -, hb, hc⟩ := bucketAddr_backed h hp
  have h1 : bucketAddr base (bucketIndex h n) % 16 = 0 := by omega
  have h2 : (bucketAddr base (bucketIndex h n) + 16) % 16 = 0 := by omega
  have h3 : bucketAddr base (bucketIndex h n) + 32 ≤ c.memBytes := by omega
  have h4 : bucketAddr base (bucketIndex h n) + 16 ≤ c.memBytes := by omega
  unfold kernelContains
  cases c.backend
  · simp [kernelContainsV256, hp, vload, memRead, ha, h3]
  · simp [kernelContainsV128P, hp, vload, memRead, h1, h3, h4]

/-- What a `KernelInsert` of the instance's backend can answer: one status, its stores, the accesses of R59. -/
theorem kernelInsert_eq {c : Config} {m : Memory} {base : Word64} {n : BitVec 32} {h : Word64}
    (hp : kernelPre c base n) :
    kernelInsert c m base n h = some (
      let addr := bucketAddr base (bucketIndex h n)
      match c.backend with
      | .v256 =>
        { status := vtestc (m.load 256 addr 32) (maskRegister (salt256 c) h)
          mem := m.store addr (vor (m.load 256 addr 32) (maskRegister (salt256 c) h)) 32
          events := [.read addr 32, .write addr 32] }
      | .v128p =>
        { status := vtestc (m.load 128 addr 16) (maskRegister (saltLo c) h) &&
            vtestc (m.load 128 (addr + 16) 16) (maskRegister (saltHi c) h)
          mem := (m.store addr (vor (m.load 128 addr 16) (maskRegister (saltLo c) h)) 16).store (addr + 16)
            (vor (m.load 128 (addr + 16) 16) (maskRegister (saltHi c) h)) 16
          events := [.readHalves addr, .writeHalves addr] }) := by
  obtain ⟨ha, -, hb, hc⟩ := bucketAddr_backed h hp
  have h1 : bucketAddr base (bucketIndex h n) % 16 = 0 := by omega
  have h2 : (bucketAddr base (bucketIndex h n) + 16) % 16 = 0 := by omega
  have h3 : bucketAddr base (bucketIndex h n) + 32 ≤ c.memBytes := by omega
  have h4 : bucketAddr base (bucketIndex h n) + 16 ≤ c.memBytes := by omega
  unfold kernelInsert
  cases c.backend
  · simp [kernelInsertV256, hp, vload, memRead, vstore, memWrite, ha, h3]
  · simp [kernelInsertV128P, hp, vload, memRead, vstore, memWrite, h1, h3, h4]

/-- A kernel has no meaning without its precondition (R58). -/
theorem kernelInsert_none {c : Config} {m : Memory} {base : Word64} {n : BitVec 32} {h : Word64}
    (hp : ¬ kernelPre c base n) : kernelInsert c m base n h = none := by
  unfold kernelInsert
  cases c.backend
  · exact if_neg hp
  · exact if_neg hp

theorem kernelContains_none {c : Config} {m : Memory} {base : Word64} {n : BitVec 32} {h : Word64}
    (hp : ¬ kernelPre c base n) : kernelContains c m base n h = none := by
  unfold kernelContains
  cases c.backend
  · exact if_neg hp
  · exact if_neg hp

/-- The precondition of the kernels follows from the registers of a live filter (R33, R120, R168). -/
theorem liveRegisters_kernelPre {s : State} (h : s.LiveRegisters) :
    kernelPre s.config s.base s.bucketCount := by
  obtain ⟨h1, -, -, h4, h5, -, h7⟩ := h
  exact ⟨h1, by omega, by omega⟩

/-! ### A step -/

/-- What a step that answers a next state can have done. -/
theorem step_eq_next {s t : State} (h : step s = .next t) :
    (s.hostActions = [] ∧ t = s) ∨
      ∃ act rest, s.hostActions = act :: rest ∧ runAction act { s with hostActions := rest } = .next t := by
  unfold step at h
  split at h
  · next hs => exact .inl ⟨hs, by cases h; rfl⟩
  · next act rest hs =>
    refine .inr ⟨act, rest, hs, ?_⟩
    rw [← h]
    simp [dropAction, hs]

theorem step_cons {s : State} {act : HostAction} {rest : List HostAction} (h : s.hostActions = act :: rest) :
    step s = runAction act { s with hostActions := rest } := by
  unfold step
  rw [h]
  simp [dropAction, h]

end Sys2Proof.Machine
end

