-- ==== Sys2Proof/Laws/PerInstr.lean ====
section
/-! SUPPORT. A statement about every command as syntax, one lemma per constructor: the encoding of a well-formed command
selects the command's own row of the opcode table (30_encoding.md R92). -/

namespace Sys2Proof

/-- `op ‖ a ‖ b` masked field by field. -/
theorem commandWord_and (op op' : BitVec 8) (a a' b b' : Word64) :
    commandWord op a b &&& commandWord op' a' b' = commandWord (op &&& op') (a &&& a') (b &&& b') :=
  (BitVec.and_append (x₁ := op ++ a) (x₂ := op' ++ a')).trans
    (congrArg (fun x : BitVec 72 => x ++ (b &&& b')) (BitVec.and_append (x₁ := op) (x₂ := op')))

/-- The encoding of a well-formed command selects a row of the opcode table, and the row is the command's own. -/
def Laws.EncodingSelectsRow.Statement (i : Instr) : Prop :=
  wellFormed i = true → ∃ r ∈ opcodeTable, r.selects (encode i) ∧ r.mnemonic = mnemonic i

theorem Laws.EncodingSelectsRow.new (bitsPerKey expectedKeys : BitVec 32) (base : Word64) :
    Laws.EncodingSelectsRow.Statement (.new bitsPerKey expectedKeys base) := by
  refine fun _ => ⟨_, .head _, ?_, rfl⟩
  change commandWord 0x01 (bitsPerKey ++ expectedKeys) base &&& commandWord 0xFF 0 0 = commandWord 0x01 0 0
  rw [commandWord_and]; simp

theorem Laws.EncodingSelectsRow.insert (hash : Word64) : Laws.EncodingSelectsRow.Statement (.insert hash) := by
  refine fun _ => ⟨_, .tail _ (.head _), ?_, rfl⟩
  change commandWord 0x02 hash 0 &&& commandWord 0xFF 0 0xFFFFFFFFFFFFFFFF = commandWord 0x02 0 0
  rw [commandWord_and]; simp

theorem Laws.EncodingSelectsRow.contains (hash : Word64) : Laws.EncodingSelectsRow.Statement (.contains hash) := by
  refine fun _ => ⟨_, .tail _ (.tail _ (.head _)), ?_, rfl⟩
  change commandWord 0x03 hash 0 &&& commandWord 0xFF 0 0xFFFFFFFFFFFFFFFF = commandWord 0x03 0 0
  rw [commandWord_and]; simp

theorem Laws.EncodingSelectsRow.release : Laws.EncodingSelectsRow.Statement .release :=
  fun _ => ⟨_, .tail _ (.tail _ (.tail _ (.head _))), by decide, rfl⟩

theorem Laws.EncodingSelectsRow.rdcsr (csr : Word64) : Laws.EncodingSelectsRow.Statement (.rdcsr csr) := by
  intro h
  refine ⟨_, .tail _ (.tail _ (.tail _ (.tail _ (.head _)))), ?_, rfl⟩
  rcases csr_le_four (of_decide_eq_true h) with rfl | rfl | rfl | rfl | rfl <;> decide

end Sys2Proof
end

