-- ==== Sys2Proof/Laws/Step.lean ====
section
/-! SUPPORT. Everything a command, and a step, that answers a next state can have done: one case per outcome. -/

namespace Sys2Proof.Machine

/-- What a command that answers a next state did: one constructor per outcome of R161 and per command performed. -/
inductive Does : Instr → State → State → Prop where
  | inFault {i : Instr} {s : State} (hi : ∀ n, i ≠ .rdcsr n) (hs : s.unit = .fault) : Does i s (respond s .fatal 0)
  | newInLive {b k : BitVec 32} {base : Word64} {s : State} (hs : s.unit = .live) :
    Does (.new b k base) s (respond s .errState 0)
  | insertInEmpty {h : Word64} {s : State} (hs : s.unit = .empty) : Does (.insert h) s (respond s .errState 0)
  | containsInEmpty {h : Word64} {s : State} (hs : s.unit = .empty) : Does (.contains h) s (respond s .errState 0)
  | releaseInEmpty {s : State} (hs : s.unit = .empty) : Does .release s (respond s .errState 0)
  | newGeometry {b k : BitVec 32} {base : Word64} {s : State} (hs : s.unit = .empty)
    (hg : ¬ geometryOK (geometryBytes b k)) :
    Does (.new b k base) s (respond s .errGeometry (BitVec.ofNat 64 (geometryBytes b k)))
  | newFatal {b k : BitVec 32} {base : Word64} {s : State} (hs : s.unit = .empty)
    (hg : geometryOK (geometryBytes b k)) (ha : ¬ allocOK s.config base (geometryBytes b k)) :
    Does (.new b k base) s (raiseFatal s (BitVec.ofNat 64 (geometryBytes b k)))
  | newDone {b k : BitVec 32} {base : Word64} {s : State} (hs : s.unit = .empty)
    (hg : geometryOK (geometryBytes b k)) (ha : allocOK s.config base (geometryBytes b k)) :
    Does (.new b k base) s
      (respond
        (openFilter
          (accessMemory s (s.mem.zeroFill base.toNat (geometryBytes b k))
            [.zeroFill base.toNat (geometryBytes b k)])
          base (geometryBytes b k) (bucketsIn (geometryBytes b k)))
        .ok (BitVec.ofNat 64 (geometryBytes b k)))
  | insertDone {h : Word64} {s : State} {r : KernelResult} (hs : s.unit = .live)
    (hp : kernelPre s.config s.base s.bucketCount)
    (hr : kernelInsert s.config s.mem s.base s.bucketCount h = some r) :
    Does (.insert h) s (reportStatus (accessMemory s r.mem r.events) r.status)
  | containsDone {h : Word64} {s : State} {r : KernelResult} (hs : s.unit = .live)
    (hp : kernelPre s.config s.base s.bucketCount)
    (hr : kernelContains s.config s.mem s.base s.bucketCount h = some r) :
    Does (.contains h) s (reportStatus (accessMemory s r.mem r.events) r.status)
  | releaseDone {s : State} (hs : s.unit = .live) : Does .release s (respond (closeFilter s) .ok s.byteLength)
  | rdcsrDone {n : Word64} {s : State} {r : Csr} (hr : csrOfNumber n = some r) :
    Does (.rdcsr n) s (respond s .ok (readCsr s r))
  | rdcsrIllegal {n : Word64} {s : State} (hr : csrOfNumber n = none) :
    Does (.rdcsr n) s (respond s .errIllegal 0)

theorem UnitState.eq_empty {u : UnitState} (h : u ≠ .fault) (h' : u ≠ .live) : u = .empty := by
  cases u <;> simp_all

theorem UnitState.eq_live {u : UnitState} (h : u ≠ .fault) (h' : u ≠ .empty) : u = .live := by
  cases u <;> simp_all

theorem execNew_does {b k : BitVec 32} {base : Word64} {s t : State} (h : execNew b k base s = .next t) :
    Does (.new b k base) s t := by
  rcases performIn_eq_next h with ⟨hs, rfl⟩ | ⟨hf, hs, rfl⟩ | ⟨hf, hs, h⟩
  · exact .inFault (by simp) hs
  · exact .newInLive (UnitState.eq_live hf hs)
  · split at h
    · next hg => cases h; exact .newGeometry hs hg
    · next hg =>
      split at h
      · next ha => cases h; exact .newFatal hs (not_not.1 hg) ha
      · next ha => cases h; exact .newDone hs (not_not.1 hg) (not_not.1 ha)

theorem execInsert_does {x : Word64} {s t : State} (h : execInsert x s = .next t) : Does (.insert x) s t := by
  rcases performIn_eq_next h with ⟨hs, rfl⟩ | ⟨hf, hs, rfl⟩ | ⟨hf, hs, h⟩
  · exact .inFault (by simp) hs
  · exact .insertInEmpty (UnitState.eq_empty hf hs)
  · split at h
    · cases h
    · next r hr =>
      cases h
      by_cases hp : kernelPre s.config s.base s.bucketCount
      · exact .insertDone hs hp hr
      · rw [kernelInsert_none hp] at hr; cases hr

theorem execContains_does {x : Word64} {s t : State} (h : execContains x s = .next t) : Does (.contains x) s t := by
  rcases performIn_eq_next h with ⟨hs, rfl⟩ | ⟨hf, hs, rfl⟩ | ⟨hf, hs, h⟩
  · exact .inFault (by simp) hs
  · exact .containsInEmpty (UnitState.eq_empty hf hs)
  · split at h
    · cases h
    · next r hr =>
      cases h
      by_cases hp : kernelPre s.config s.base s.bucketCount
      · exact .containsDone hs hp hr
      · rw [kernelContains_none hp] at hr; cases hr

theorem execRelease_does {s t : State} (h : execRelease s = .next t) : Does .release s t := by
  rcases performIn_eq_next h with ⟨hs, rfl⟩ | ⟨hf, hs, rfl⟩ | ⟨hf, hs, h⟩
  · exact .inFault (by simp) hs
  · exact .releaseInEmpty (UnitState.eq_empty hf hs)
  · cases h; exact .releaseDone hs

theorem execRdcsr_does {n : Word64} {s t : State} (h : execRdcsr n s = .next t) : Does (.rdcsr n) s t := by
  unfold execRdcsr at h
  split at h
  · next r hr => cases h; exact .rdcsrDone hr
  · next hr => cases h; exact .rdcsrIllegal hr

/-- A command that answers a next state did one of these. -/
theorem exec_does {i : Instr} {s t : State} (h : exec i s = .next t) : Does i s t := by
  cases i with
  | new b k base => exact execNew_does h
  | insert x => exact execInsert_does h
  | contains x => exact execContains_does h
  | release => exact execRelease_does h
  | rdcsr n => exact execRdcsr_does h

/-- What a step that answers a next state did. -/
theorem step_does {s t : State} (h : step s = .next t) :
    (s.hostActions = [] ∧ t = s) ∨
    (∃ w rest e, s.hostActions = .present w :: rest ∧ decode w = .error e ∧
      t = respond { s with hostActions := rest } .errIllegal 0) ∨
    (∃ w rest i, s.hostActions = .present w :: rest ∧ decode w = .ok i ∧ Does i { s with hostActions := rest } t) ∨
    (∃ rest, s.hostActions = .assertReset :: rest ∧ t = resetUnit { s with hostActions := rest }) ∨
    (∃ addr v rest, s.hostActions = .writeByte addr v :: rest ∧ addr.toNat < s.config.memBytes ∧
      ¬ s.inLiveBuffer addr.toNat ∧ t = { s with hostActions := rest, mem := s.mem.poke addr.toNat v }) ∨
    (∃ addr rest, s.hostActions = .readByte addr :: rest ∧ addr.toNat < s.config.memBytes ∧
      ¬ s.inLiveBuffer addr.toNat ∧ t = { s with hostActions := rest }) := by
  rcases step_eq_next h with h | ⟨act, rest, hs, h⟩
  · exact .inl h
  · cases act with
    | present w =>
      unfold runAction runWord at h
      simp only at h
      split at h
      · next i hi => exact .inr (.inr (.inl ⟨w, rest, i, hs, hi, exec_does h⟩))
      · next e he => cases h; exact .inr (.inl ⟨w, rest, e, hs, he, rfl⟩)
    | assertReset => cases h; exact .inr (.inr (.inr (.inl ⟨rest, hs, rfl⟩)))
    | writeByte addr v =>
      obtain ⟨h1, h2, h3⟩ := hostWrite_eq_next.1 h
      exact .inr (.inr (.inr (.inr (.inl ⟨addr, v, rest, hs, h1, h2, h3⟩))))
    | readByte addr =>
      obtain ⟨h1, h2, h3⟩ := hostRead_eq_next.1 h
      exact .inr (.inr (.inr (.inr (.inr ⟨addr, rest, hs, h1, h2, h3⟩))))

/-- A number below 5 names a register (R24). -/
theorem csrOfNumber_isSome {n : Word64} (h : n ≤ 4) : ∃ r, csrOfNumber n = some r := by
  rcases csr_le_four h with rfl | rfl | rfl | rfl | rfl
  exacts [⟨.base, rfl⟩, ⟨.byteLength, rfl⟩, ⟨.bucketCount, rfl⟩, ⟨.align, rfl⟩, ⟨.status, rfl⟩]

/-! ## Runs, one step at a time -/

theorem run_of_next {s u : State} (k : Nat) (h : step s = .next u) :
    Sys2Proof.core.run (k + 1) s = Sys2Proof.core.run k u := by
  have h' : Sys2Proof.core.step s = .next u := h
  simp only [Host.Core.run, h']

theorem run_of_fault {s : State} {r : Fault} (k : Nat) (h : step s = .fault r) :
    Sys2Proof.core.run (k + 1) s = .fault r := by
  have h' : Sys2Proof.core.step s = .fault r := h
  simp only [Host.Core.run, h']

theorem run_of_refused {s : State} {r : Refusal} (k : Nat) (h : step s = .refused r) :
    Sys2Proof.core.run (k + 1) s = .refused r := by
  have h' : Sys2Proof.core.step s = .refused r := h
  simp only [Host.Core.run, h']

/-- A run that answers a next state took a first step that did. -/
theorem run_eq_next {k : Nat} {s t : State} :
    Sys2Proof.core.run (k + 1) s = .next t ↔ ∃ u, step s = .next u ∧ Sys2Proof.core.run k u = .next t := by
  cases h : step s with
  | next u => rw [run_of_next k h]; simp
  | fault r => rw [run_of_fault k h]; simp
  | refused r => rw [run_of_refused k h]; simp

end Sys2Proof.Machine
end

