-- ==== Sys2Proof/Tests/Slice0.lean ====
section
/-! SUPPORT. Tests of single steps, with the expected values of 95_test_vectors.md and of the worked examples of the
rules, and one theorem for each statement that has hypotheses, showing that a state and operands meet them. -/

namespace Sys2Proof.Tests

open Sys2Proof Sys2Proof.Machine

-- One declaration after another: many kernel evaluations at once ask for many threads.
set_option Elab.async false

/-- The outcome is a next state that satisfies `p`. -/
def answers (o : Host.Outcome State Fault Refusal) (p : State → Bool) : Bool :=
  match o with
  | .next t => p t
  | .fault _ => false
  | .refused _ => false

theorem answers_next {o : Host.Outcome State Fault Refusal} {p : State → Bool} (h : answers o p = true) :
    ∃ t, o = .next t ∧ p t = true := by
  cases o with
  | next t => exact ⟨t, rfl, h⟩
  | fault r => cases h
  | refused r => cases h

/-- The last response word on the response port. -/
def lastWord (s : State) : ResponseWord :=
  match s.responses.getLast? with
  | some r => r.word
  | none => 0

/-- The command answers a next state whose last response word is `r`. -/
def gives (i : Instr) (s : State) (r : ResponseWord) : Bool := answers (exec i s) fun t => lastWord t == r

/-- An empty unit with `memBytes` bytes of memory and the actions `l` waiting. -/
def emptyUnit (b : Backend) (memBytes : Nat) (l : List HostAction) : State :=
  { State.resetOf { Config.standard with backend := b, memBytes := memBytes } with hostActions := l }

/-- A live filter of `buckets` buckets at `base`, all zero. -/
def liveUnit (b : Backend) (memBytes base buckets : Nat) (l : List HostAction) : State :=
  { emptyUnit b memBytes l with
    unit := .live
    base := BitVec.ofNat 64 base
    byteLength := BitVec.ofNat 64 (32 * buckets)
    bucketCount := BitVec.ofNat 32 buckets }

/-- The smallest filter, at 64 of 256 bytes of memory (program P2). -/
def tiny (l : List HostAction) : State := liveUnit .v256 256 64 2 l

/-- A unit in `FAULT` (program P3). -/
def dead (l : List HostAction) : State := { emptyUnit .v128p 4096 l with unit := .fault }

/-! ## Well-formedness -/

theorem test_ill_formed_rdcsr_refused : wellFormed (.rdcsr 5) = false ∧ wellFormed (.rdcsr (2 ^ 32)) = false := by
  decide

theorem test_well_formed_others : wellFormed (.new 0 0 7) = true ∧ wellFormed (.insert 0) = true ∧
    wellFormed (.contains 0) = true ∧ wellFormed .release = true ∧ wellFormed (.rdcsr 4) = true := by decide

/-! ## Decoding (R91, V6, P2, P3) -/

/-- `01 00000010 00000400 0000000000010000` (R91) and the all-ones operands of V6. -/
theorem test_decode_new :
    decode 0x0100000010000004000000000000010000 = .ok (.new 16 1024 0x10000) ∧
    decode 0x01FFFFFFFFFFFFFFFFFFFFFFFFFFFFFFFF = .ok (.new 0xFFFFFFFF 0xFFFFFFFF 0xFFFFFFFFFFFFFFFF) ∧
    decode 0x010000000C000003E80000000000000A80 = .ok (.new 12 1000 0xA80) := by decide

theorem test_decode_insert :
    decode 0x029E3779B97F4A7C150000000000000000 = .ok (.insert 0x9E3779B97F4A7C15) ∧
    decode 0x02FFFFFFFFFFFFFFFF0000000000000000 = .ok (.insert 0xFFFFFFFFFFFFFFFF) := by decide

theorem test_decode_contains :
    decode 0x039E3779B97F4A7C150000000000000000 = .ok (.contains 0x9E3779B97F4A7C15) ∧
    decode 0x0300000000000000000000000000000000 = .ok (.contains 0) := by decide

theorem test_decode_release : decode 0x0400000000000000000000000000000000 = .ok .release := by decide

theorem test_decode_rdcsr :
    decode 0x0500000000000000000000000000000000 = .ok (.rdcsr 0) ∧
    decode 0x0500000000000000040000000000000000 = .ok (.rdcsr 4) := by decide

/-- The illegal words of V6. Its word for `rdcsr 2^32` has `A = 2^8`; the word with `A = 2^32` stands after it. -/
theorem test_decode_illegal :
    decode 0 = .error (.unknownOpcode 0) ∧
    decode 0x0600000000000000000000000000000000 = .error (.unknownOpcode 6) ∧
    decode 0xFF00000000000000000000000000000000 = .error (.unknownOpcode 0xFF) ∧
    decode 0x0200000000000000050000000000000001 = .error .reservedNotZero ∧
    decode 0x0300000000000000008000000000000000 = .error .reservedNotZero ∧
    decode 0x0400000000000000010000000000000000 = .error .reservedNotZero ∧
    decode 0x0400000000000000000000000000000001 = .error .reservedNotZero ∧
    decode 0x0500000000000000050000000000000000 = .error (.noSuchRegister 5) ∧
    decode 0x0500000000000001000000000000000000 = .error (.noSuchRegister 0x100) ∧
    decode 0x0500000001000000000000000000000000 = .error (.noSuchRegister 0x100000000) ∧
    decode 0x0500000000000000000000000000000001 = .error .reservedNotZero := by decide

/-- The text of `new 16, 1024, 0x10000` and of `rdcsr status`, numbers in decimal (R90). -/
theorem test_assembly :
    assembly (.new 16 1024 0x10000) = "new 16, 1024, 65536" ∧ assembly (.rdcsr 4) = "rdcsr 4" ∧
      assembly .release = "release" := by decide +kernel

theorem test_decode_table_word :
    decodeTableWord 136 0x0400000000000000000000000000000000 = some .release ∧
    decodeTableWord 136 0x0500000000000000070000000000000000 = none := by decide

/-- Right after reset a placed `rdcsr align` is the first command and answers 64 (R152). -/
theorem test_first_command_after_reset :
    answers (step (State.reset.withFetchWord 136 0x0500000000000000030000000000000000))
      (fun t => lastWord t == 0x000000000000000040) = true := by decide +kernel

/-! ## The component functions -/

/-- Rows of R107: exact, tie up, down to 0, down, tie up, down, multiply first (V1), the largest. -/
theorem test_geometry :
    geometryBytes 16 1024 = 2048 ∧ geometryBytes 8 32 = 64 ∧ geometryBytes 8 31 = 0 ∧ geometryBytes 8 65 = 64 ∧
    geometryBytes 8 96 = 128 ∧ geometryBytes 12 1000 = 1472 ∧ geometryBytes 3 3 = 0 ∧
    geometryBytes 0xFFFFFFFF 0xFFFFFFFF = 2305843008139952128 ∧ bucketsIn 1472 = 46 := by decide +kernel

/-- Rows of V2, with a bucket count that is no power of two. -/
theorem test_bucket_index :
    bucketIndex 0xDEADBEEFCAFEBABE 46 = 40 ∧ bucketIndex 0x9E3779B97F4A7C15 46 = 28 ∧
    bucketIndex 0xFFFFFFFFFFFFFFFF 46 = 45 ∧ bucketIndex 0x00000000FFFFFFFF 46 = 0 ∧
    bucketIndex 0x0123456789ABCDEF 4294967294 = 19088742 ∧ bucketIndex 0x9E3779B97F4A7C15 64 = 39 := by
  decide +kernel

/-- R119 and V3: the exponents and the mask for the default salts, with an exponent of 31 and one of 0. -/
theorem test_mask :
    (List.range 8).map (fun i => (maskExp Config.standard 0x9E3779B97F4A7C15 i).toNat) =
      [23, 8, 6, 22, 6, 31, 20, 25] ∧
    (List.range 8).map (fun i => (maskExp Config.standard 0xDEADBEEFCAFEBABE i).toNat) =
      [28, 6, 15, 0, 14, 10, 0, 30] ∧
    mask Config.standard 0x9E3779B97F4A7C15 =
      0x0200000000100000800000000000004000400000000000400000010000800000 := by decide +kernel

/-- V4, rows 4 and 5: one half of the register pair passes, the other fails. -/
theorem test_halves_of_the_subset_test :
    vtestc (w := 128) 0x00400000000000400000010000800000 (maskRegister (saltLo Config.standard) 0x9E3779B97F4A7C15)
      = true ∧
    vtestc (w := 128) 0x02000000001000000000000000000040 (maskRegister (saltHi Config.standard) 0x9E3779B97F4A7C15)
      = false ∧
    vtestc (w := 128) 0x00400000000000400000010000000000 (maskRegister (saltLo Config.standard) 0x9E3779B97F4A7C15)
      = false := by decide +kernel

/-! ## One command -/

/-- V1 and V7: the worked `NEW` of R145, and a good geometry on a misaligned base. -/
theorem test_new :
    gives (.new 16 1024 0x10000) (emptyUnit .v256 0x20000 []) 0x000000000000000800 = true ∧
    answers (exec (.new 8 32 0x40) (emptyUnit .v256 0x100 []))
      (fun t => t.unit == .live && t.base == 0x40 && t.bucketCount == 2 && t.byteLength == 64) = true := by
  decide +kernel

/-- P3, steps 10, 12, 20 and 21: the geometry refusals, the region that does not fit, the highest legal base. -/
theorem test_new_refused :
    gives (.new 8 31 0) (emptyUnit .v128p 0x1000 []) 0x030000000000000000 = true ∧
    gives (.new 0xFFFFFFFF 0xFFFFFFFF 0) (emptyUnit .v128p 0x1000 []) 0x031FFFFFFFC0000000 = true ∧
    gives (.new 12 1000 0xA80) (emptyUnit .v128p 0x1000 []) 0xFF00000000000005C0 = true ∧
    gives (.new 12 1000 0xA40) (emptyUnit .v128p 0x1000 []) 0x0000000000000005C0 = true := by decide +kernel

/-- R137: the non-zero bytes of bucket 39 at `0x104E0` (P1's list), on either backend. -/
theorem test_insert : ∀ b ∈ [Backend.v256, .v128p],
    answers (exec (.insert 0x9E3779B97F4A7C15) (liveUnit b 0x20000 0x10000 64 []))
      (fun t => lastWord t == 0 && t.mem == [(0x104E2, 0x80), (0x104E5, 0x01), (0x104E8, 0x40), (0x104EE, 0x40),
        (0x104F0, 0x40), (0x104F7, 0x80), (0x104FA, 0x10), (0x104FF, 0x02)]) = true := by decide +kernel

/-- P2, steps 6 and 8: a first `INSERT` that answers 1, and the bucket it shares. -/
theorem test_insert_shared_bits :
    gives (.insert 0x7FFFFFFF00000000)
      { tiny [] with mem := (List.range 8).map fun i => (64 + 4 * i, 0x01) } 0x000000000000000001 = true := by
  decide +kernel

/-- P1, steps 8 and 9, on the bucket that step 4 wrote: a false positive, and a clear bit in lane 0. -/
theorem test_contains :
    let s := { liveUnit .v128p 0x20000 0x10000 64 [] with
      mem := [(0x104E2, 0x80), (0x104E5, 0x01), (0x104E8, 0x40), (0x104EE, 0x40),
        (0x104F0, 0x40), (0x104F7, 0x80), (0x104FA, 0x10), (0x104FF, 0x02)] }
    gives (.contains 0x9E3779B87F4A7C15) s 0x000000000000000001 = true ∧
      gives (.contains 0x9E3779B97F4A7C16) s 0x000000000000000000 = true := by decide +kernel

/-- V7: `CONTAINS` before a `NEW`, and in `FAULT`. -/
theorem test_contains_refused :
    gives (.contains 0) (emptyUnit .v256 256 []) 0x020000000000000000 = true ∧
      gives (.contains 0) (dead []) 0xFF0000000000000000 = true := by decide +kernel

/-- P1, step 11, and the double release of R151 (a). -/
theorem test_release :
    gives .release (liveUnit .v256 0x20000 0x10000 64 []) 0x000000000000000800 = true ∧
      gives .release (emptyUnit .v256 0x20000 []) 0x020000000000000000 = true := by decide +kernel

/-- R152's worked values, and V8's `STATUS` with `HIT` set. -/
theorem test_rdcsr :
    gives (.rdcsr 4) (liveUnit .v128p 0x20000 0x10000 64 []) 0x000000000000000101 = true ∧
    gives (.rdcsr 4) { tiny [] with hit := true } 0x000000000000000005 = true ∧
    gives (.rdcsr 4) (dead []) 0x000000000000000102 = true ∧
    gives (.rdcsr 2) (liveUnit .v128p 0x20000 0x10000 64 []) 0x000000000000000040 = true := by decide +kernel

/-- P3, step 16: an illegal word is answered before `FAULT` is. -/
theorem test_illegal_before_fault :
    answers (step (dead [.present 0x0200000000000000000000000000000001]))
      (fun t => lastWord t == 0x010000000000000000 && t.unit == .fault) = true := by decide +kernel

/-! ## Witnesses: a state and operands that meet the hypotheses of each statement -/

/-- The smallest filter with actions waiting meets the invariant. -/
theorem tiny_inv (l : List HostAction) : (tiny l).Inv := by
  have h : (tiny []).Inv := by decide +kernel
  exact h

theorem dead_inv (l : List HostAction) : (dead l).Inv := by
  have h : (dead []).Inv := by decide +kernel
  exact h

theorem empty_inv (l : List HostAction) : (emptyUnit .v256 256 l).Inv := by
  have h : (emptyUnit .v256 256 []).Inv := by decide +kernel
  exact h

theorem witness_CommandsAndWordsCorrespond :
    wellFormed (.rdcsr 4) = true ∧ decode 0x0500000000000000040000000000000000 = .ok (.rdcsr 4) := by decide

theorem witness_IllegalWordsAreExactlyThese : ∃ (s : State) (w : CommandWord) (rest : List HostAction)
    (e : DecodeError), s.hostActions = .present w :: rest ∧ decode w = .error e :=
  ⟨tiny [.present 0], 0, [], .unknownOpcode 0, rfl, by decide⟩

theorem witness_OpcodeTableSelectsTheLegalWords :
    (∃ r ∈ opcodeTable, r.selects 0x0500000000000000040000000000000000 ∧
      (aField 0x0500000000000000040000000000000000).toNat ≤ 4) ∧
    decode 0x0500000000000000040000000000000000 = .ok (.rdcsr 4) := by decide

theorem witness_StepRunsTheDecodedCommand :
    (∃ (s : State) (w : CommandWord) (rest : List HostAction) (i : Instr),
      s.hostActions = .present w :: rest ∧ decode w = .ok i) ∧ ∃ s : State, s.hostActions = [] :=
  ⟨⟨tiny [.present (encode .release)], encode .release, [], .release, rfl, by decide⟩, tiny [], rfl⟩

theorem witness_PlacedWordRunsNext :
    decodeTableWord 136 0x0400000000000000000000000000000000 = some .release ∧ decodeTableWord 136 0 = none := by
  decide

theorem witness_OutcomesHaveAFixedPriority : ∃ (s t : State) (w : CommandWord) (rest : List HostAction),
    s.hostActions = .present w :: rest ∧ step s = .next t := by
  obtain ⟨t, h, -⟩ := answers_next (o := step (tiny [.present 0])) (p := fun _ => true) (by decide +kernel)
  exact ⟨_, t, 0, [], rfl, h⟩

theorem witness_ResetLeavesTheResetValues : ∃ (s : State) (rest : List HostAction),
    s.hostActions = .assertReset :: rest ∧ s.unit = .fault := ⟨dead [.assertReset], [], rfl, rfl⟩

/-- Each clause at the edges of its range: the last backed address and the next, the buffer's first and last byte, and
the bytes around it. -/
theorem witness_OtherAgentsKeepOffALiveBuffer :
    (tiny []).mem.wf ∧ (tiny []).config.memBytes ≤ 256 ∧ 255 < (tiny []).config.memBytes ∧
      ¬ (tiny []).inLiveBuffer 255 ∧ (tiny []).inLiveBuffer 64 ∧ (tiny []).inLiveBuffer 127 ∧
      ¬ (tiny []).inLiveBuffer 63 ∧ ¬ (tiny []).inLiveBuffer 128 := by decide +kernel

theorem witness_OtherAgents_actions : ∃ (s s' : State) (rest : List HostAction) (addr : Word64) (v : Byte),
    s.mem.wf ∧ s'.mem.wf ∧ s.hostActions = .writeByte addr v :: rest ∧ s'.hostActions = .readByte addr :: rest :=
  ⟨tiny [.writeByte 63 1], tiny [.readByte 63], [], 63, 1, by decide +kernel, by decide +kernel, rfl, rfl⟩

theorem witness_SizeIsTheNearestLineMultiple :
    1 ≤ 65 % 64 ∧ 95 % 64 ≤ 31 ∧ 32 ≤ 96 % 64 ∧ 96 % 64 = 32 ∧ 32 ≤ 127 % 64 := by decide

/-- The clauses meet at one bucket and `hi` of all ones, where all of them give 0. -/
theorem witness_BucketIndexIsFastrange :
    hashHi 0x00000000FFFFFFFF = 0 ∧ hashHi 0xFFFFFFFF00000000 = 0xFFFFFFFF ∧
      (hashHi 0x00000000FFFFFFFF).toNat ≤ (hashHi 0xFFFFFFFF00000000).toNat ∧
      (1#32).toNat = 2 ^ 0 ∧ (0x80000000#32).toNat = 2 ^ 31 ∧
      hashHi 0xFFFFFFFF00000000 = hashHi 0xFFFFFFFFFFFFFFFF ∧
      bucketIndex 0xFFFFFFFF00000000 1 = 0 := by decide +kernel

theorem witness_MaskHasOneBitInEveryLane :
    hashLo 0x0123456700000000 = 0 ∧ hashLo 0x0123456780000000 = 0x80000000 ∧
      (Config.standard.saltLane 7).toNat % 2 = 1 ∧ hashLo 0xFFFFFFFF00000005 = hashLo 0x0000000000000005 ∧
      hashHi 0x0000000300000005 = hashHi 0x0000000300000009 := by decide +kernel

/-- An aligned access at the top of memory and one past it. -/
theorem witness_MixedWidthsSeeOneMemory :
    224 % 32 = 0 ∧ (memRead 256 (tiny []).config [] 224).isSome = true ∧
      (memRead 256 (tiny []).config [] 256).isSome = false := by decide +kernel

theorem witness_WriteThenReadGivesTheValue :
    256 % 8 = 0 ∧ (tiny []).mem.wf ∧ 224 + 256 / 8 ≤ (tiny []).config.memBytes ∧
      (tiny []).config.memBytes < 225 + 256 / 8 := by decide +kernel

theorem witness_KernelsActLaneByLane :
    (tiny []).mem.wf ∧ kernelPre (tiny []).config (tiny []).base (tiny []).bucketCount := by decide +kernel

/-- The precondition fails for an empty buffer and for one that ends 32 bytes above memory. -/
theorem witness_KernelsNeedTheirPrecondition :
    (∃ s : State, s.unit = .live ∧ ¬ kernelPre s.config s.base s.bucketCount) ∧
      ¬ kernelPre (tiny []).config 192 3 ∧ kernelPre (tiny []).config 192 2 ∧ ¬ kernelPre (tiny []).config 63 1 :=
  ⟨⟨{ tiny [] with bucketCount := 0 }, rfl, by decide +kernel⟩, by decide +kernel, by decide +kernel,
    by decide +kernel⟩

/-- The highest legal base, on memory of 256 bytes. -/
theorem witness_NewMakesAZeroedFilter :
    (emptyUnit .v256 256 []).unit = .empty ∧ geometryOK (geometryBytes 8 32) ∧
      allocOK (emptyUnit .v256 256 []).config 192 (geometryBytes 8 32) := by decide +kernel

theorem witness_ZeroFillIsTheLoopOfLineWrites :
    Memory.wf [(3, 1), (64, 2), (130, 7)] ∧
      Memory.zeroFill [(3, 1), (64, 2), (130, 7)] 64 64 = [(3, 1), (130, 7)] := by decide +kernel

/-- Both ranges at their edges: 0 bytes, and exactly `2^37`. -/
theorem witness_NewRefusesAnUnusableGeometry :
    (emptyUnit .v256 256 []).unit = .empty ∧ geometryBytes 8 31 < 64 ∧
      geometryBytes 0x100000 0x100000 = 2 ^ 37 := by decide +kernel

/-- Both ways to fail: a misaligned base, and one line too high. -/
theorem witness_NewWithoutARegionIsFatal :
    (emptyUnit .v256 256 []).unit = .empty ∧ geometryOK (geometryBytes 8 32) ∧ (0x20 : Word64).toNat % 64 ≠ 0 ∧
      (emptyUnit .v256 256 []).config.memBytes < (256 : Word64).toNat + geometryBytes 8 32 := by decide +kernel

/-- On either backend. -/
theorem witness_InsertStoresTheMaskAndReports : ∀ b ∈ [Backend.v256, .v128p],
    (liveUnit b 256 64 2 []).unit = .live ∧ (liveUnit b 256 64 2 []).mem.wf ∧
      kernelPre (liveUnit b 256 64 2 []).config (liveUnit b 256 64 2 []).base (liveUnit b 256 64 2 []).bucketCount := by
  decide +kernel

theorem witness_ContainsReportsAndStoresNothing :
    (tiny []).unit = .live ∧ kernelPre (tiny []).config (tiny []).base (tiny []).bucketCount := by decide +kernel

theorem witness_ReleaseHandsTheBufferBack : (tiny []).unit = .live := rfl

theorem witness_RdcsrReadsEveryRegister : 4 < (5 : Word64).toNat := by decide

theorem witness_CommandsOutOfOrderAreRefused :
    (tiny []).unit = .live ∧ (emptyUnit .v256 256 []).unit = .empty := by decide

/-- One word for each clause, in `FAULT`; and reset is a step that leaves it. -/
theorem witness_FaultIsLeftOnlyByReset :
    (dead []).unit = .fault ∧ (dead []).hit = false ∧ decode (encode (.insert 0)) = .ok (.insert 0) ∧
      decode (encode (.rdcsr 4)) = .ok (.rdcsr 4) ∧ csrOfNumber 4 = some .status ∧
      decode 0 = .error (.unknownOpcode 0) ∧
      answers (step (dead [.assertReset])) (fun t => t.unit != .fault) = true := by decide +kernel

/-- A refusal, and the fatal entry. -/
theorem witness_RefusedCommandsHaveNoEffect :
    answers (step (emptyUnit .v256 256 [.present (encode .release)]))
      (fun t => t.responses == [{ code := .errState, data := 0 }]) = true ∧
    answers (step (emptyUnit .v256 256 [.present (encode (.new 8 32 0x20))]))
      (fun t => t.responses == [{ code := .fatal, data := 64 }]) = true := by decide +kernel

/-- A step for every arm: idle, a host byte, reset, `NEW` to `LIVE` and to `FAULT`, `RELEASE`. -/
theorem witness_UnitStateTransitions :
    answers (step (tiny [])) (fun t => t.unit == .live) = true ∧
    answers (step (tiny [.writeByte 0 1])) (fun t => t.unit == .live) = true ∧
    answers (step (tiny [.readByte 0])) (fun t => t.unit == .live) = true ∧
    answers (step (tiny [.assertReset])) (fun t => t.unit == .empty) = true ∧
    answers (step (emptyUnit .v256 256 [.present (encode (.new 8 32 64))])) (fun t => t.unit == .live) = true ∧
    answers (step (emptyUnit .v256 256 [.present (encode (.new 8 32 65))])) (fun t => t.unit == .fault) = true ∧
    answers (step (tiny [.present (encode .release)])) (fun t => t.unit == .empty) = true := by decide +kernel

/-- `HIT` goes from 0 to 1 by a `CONTAINS`, and from 1 to 0 by `RELEASE`. -/
theorem witness_HitHoldsTheLastAnswer :
    answers (step { tiny [.present (encode (.contains 0))] with
      mem := (List.range 8).map fun i => (64 + 4 * i, 0x01) }) (fun t => t.hit) = true ∧
    answers (step { tiny [.present (encode .release)] with hit := true }) (fun t => !t.hit) = true ∧
    answers (step { tiny [.assertReset] with hit := true }) (fun t => !t.hit) = true := by decide +kernel

theorem witness_GeometryRegistersAreFixedForLife : ∃ s t : State, step s = .next t ∧ t.base = s.base ∧ s.base = 64 :=
  by
  obtain ⟨t, h, hp⟩ := answers_next (o := step (tiny [.present (encode (.insert 0))])) (p := fun t => t.base == 64)
    (by decide +kernel)
  exact ⟨_, t, h, (beq_iff_eq.1 hp).trans (by decide), by decide⟩

theorem witness_InvariantIsKeptByEveryStep : ∃ s t : State, s.Inv ∧ step s = .next t := by
  obtain ⟨t, h, -⟩ := answers_next (o := step (tiny [.present (encode (.insert 0))])) (p := fun _ => true)
    (by decide +kernel)
  exact ⟨_, t, tiny_inv _, h⟩

theorem witness_InvariantHoldsAtReset : Config.standard.Valid := by decide +kernel

theorem witness_EveryWordIsAnsweredOnce : ∃ (s : State) (w : CommandWord) (rest : List HostAction),
    s.Inv ∧ s.hostActions = .present w :: rest ∧ s.unit = .live :=
  ⟨tiny [.present (encode (.insert 0))], _, [], tiny_inv _, rfl, rfl⟩

/-- A step that makes accesses: a `NEW` at the highest legal base. -/
theorem witness_AccessesStayInTheLiveBuffer : ∃ s t : State, s.Inv ∧ step s = .next t ∧ t.memPort ≠ s.memPort := by
  obtain ⟨t, h, hp⟩ := answers_next (o := step (emptyUnit .v256 256 [.present (encode (.new 8 32 192))]))
    (p := fun t => t.memPort == [.zeroFill 192 64]) (by decide +kernel)
  exact ⟨_, t, empty_inv _, h, by rw [beq_iff_eq.1 hp]; decide⟩

theorem witness_BufferBitsOnlyGoUp : ∃ (s t : State) (act : HostAction) (rest : List HostAction),
    s.Inv ∧ s.unit = .live ∧ s.hostActions = act :: rest ∧ act.keepsFilter ∧ step s = .next t := by
  obtain ⟨t, h, -⟩ := answers_next (o := step (tiny [.present (encode (.insert 0))])) (p := fun _ => true)
    (by decide +kernel)
  exact ⟨_, t, .present (encode (.insert 0)), [], tiny_inv _, rfl, rfl,
    show decode (encode (.insert 0)) ≠ .ok .release by decide, h⟩

/-- An `INSERT`, then a run that inserts another hash and takes a byte the host writes outside the buffer. -/
theorem witness_NoFalseNegatives : ∃ (s s1 s2 : State) (h : Word64) (k : Nat),
    s.Inv ∧ s.unit = .live ∧ exec (.insert h) s = .next s1 ∧ (∀ act ∈ s1.hostActions, act.keepsFilter) ∧
      Sys2Proof.core.run k s1 = .next s2 ∧ s2.hostActions = [] := by
  let l : List HostAction := [.present (encode (.insert 5)), .writeByte 63 9]
  obtain ⟨s1, h1, hp⟩ := answers_next (o := exec (.insert 0) (tiny l))
    (p := fun t => t.hostActions == l && answers (step t) fun u => answers (step u) fun v => v.hostActions == [])
    (by decide +kernel)
  obtain ⟨hl, hp⟩ := (Bool.and_eq_true ..).mp hp
  obtain ⟨u, h2, hp⟩ := answers_next hp
  obtain ⟨s2, h3, hp⟩ := answers_next hp
  refine ⟨tiny l, s1, s2, 0, 2, tiny_inv l, rfl, h1, ?_, ?_, beq_iff_eq.1 hp⟩
  · rw [beq_iff_eq.1 hl]
    intro act ha
    rcases List.mem_cons.1 ha with rfl | ha
    · exact show decode (encode (.insert 5)) ≠ .ok .release by decide
    · rw [List.mem_singleton.1 ha]; trivial
  · rw [run_of_next 1 h2, run_of_next 0 h3]; rfl

theorem witness_SecondInsertFindsTheFirst : ∃ (s s1 : State) (h : Word64),
    s.unit = .live ∧ s.mem.wf ∧ exec (.insert h) s = .next s1 ∧ s1.hit = false := by
  obtain ⟨s1, h, hp⟩ := answers_next (o := exec (.insert 0) (tiny [])) (p := fun t => !t.hit) (by decide +kernel)
  exact ⟨tiny [], s1, 0, rfl, by decide +kernel, h, by simpa using hp⟩

theorem witness_FreshFilterHoldsNothing : ∃ (s t : State), s.unit = .empty ∧
    exec (.new 8 32 64) s = .next t ∧ t.unit = .live := by
  obtain ⟨t, h, hp⟩ := answers_next (o := exec (.new 8 32 64) (emptyUnit .v256 256 []))
    (p := fun t => t.unit == .live) (by decide +kernel)
  exact ⟨_, t, rfl, h, beq_iff_eq.1 hp⟩

/-- The pair of R149 (d): different hashes, one bucket of 64, one low half. -/
theorem witness_SharedBucketAndMaskAnswersOne : ∃ (s s1 : State) (h h' : Word64), h ≠ h' ∧
    s.unit = .live ∧ s.mem.wf ∧ exec (.insert h) s = .next s1 ∧
    bucketIndex h' s.bucketCount = bucketIndex h s.bucketCount ∧ hashLo h' = hashLo h := by
  obtain ⟨s1, h, -⟩ := answers_next
    (o := exec (.insert 0x9E3779B97F4A7C15) (liveUnit .v256 0x20000 0x10000 64 [])) (p := fun _ => true)
    (by decide +kernel)
  exact ⟨_, s1, 0x9E3779B97F4A7C15, 0x9E3779B87F4A7C15, by decide, rfl, by decide +kernel, h, by decide +kernel,
    by decide +kernel⟩

theorem witness_RunsDoNotDependOnTheBackend : ∃ s : State, s.hostActions ≠ [] ∧
    ∀ act ∈ s.hostActions, act.blindToBackend := by
  refine ⟨tiny [.present (encode (.insert 0))], by decide, ?_⟩
  intro act ha
  rw [List.mem_singleton.1 ha]
  exact show decode (encode (.insert 0)) ≠ .ok (.rdcsr 4) by decide

/-- Two memories that differ below the buffer. -/
theorem witness_MemoryOutsideTheBufferIsNeverRead : ∃ (s t : State) (m' : Memory), s.Inv ∧
    ({ s with mem := m' } : State).MemoryGood ∧ (∀ x, s.inLiveBuffer x → m'.peek x = s.mem.peek x) ∧
    step s = .next t ∧ m' ≠ s.mem := by
  obtain ⟨t, h, -⟩ := answers_next (o := step (tiny [.present (encode (.contains 0))])) (p := fun _ => true)
    (by decide +kernel)
  refine ⟨_, t, [(3, 1)], tiny_inv _, by decide +kernel, ?_, h, by decide⟩
  rintro x ⟨-, hx, -⟩
  have hx : 64 ≤ x := hx
  simp [Memory.peek, tiny, liveUnit, emptyUnit, State.resetOf, unlistedByte]
  omega

end Sys2Proof.Tests
end

section
/-! SUPPORT. The transitions of `STATE` (10_state.md R23): one lemma for a command, one for a step. -/

namespace Sys2Proof.Machine

/-- `STATE` after a command, as the state diagram of R23 has it. -/
def unitAfterCommand (s : State) : Instr → UnitState
  | .new bitsPerKey expectedKeys base =>
    if s.unit = .empty ∧ geometryOK (geometryBytes bitsPerKey expectedKeys) then
      if allocOK s.config base (geometryBytes bitsPerKey expectedKeys) then .live else .fault
    else s.unit
  | .release => if s.unit = .live then .empty else s.unit
  | .insert _ => s.unit
  | .contains _ => s.unit
  | .rdcsr _ => s.unit

/-- A `NEW` makes a transition only from `EMPTY`, and there only with a usable geometry. -/
theorem unitAfterCommand_new_of_not {s : State} {bitsPerKey expectedKeys : BitVec 32} {base : Word64}
    (h : ¬ (s.unit = .empty ∧ geometryOK (geometryBytes bitsPerKey expectedKeys))) :
    unitAfterCommand s (.new bitsPerKey expectedKeys base) = s.unit := if_neg h

/-- A `NEW` of usable geometry in `EMPTY` ends in `LIVE` or `FAULT`, as the allocation check has it (R143). -/
theorem unitAfterCommand_new_of_usable {s : State} {bitsPerKey expectedKeys : BitVec 32} {base : Word64}
    (hs : s.unit = .empty) (hg : geometryOK (geometryBytes bitsPerKey expectedKeys)) :
    unitAfterCommand s (.new bitsPerKey expectedKeys base) =
      if allocOK s.config base (geometryBytes bitsPerKey expectedKeys) then .live else .fault := if_pos ⟨hs, hg⟩

/-- A `RELEASE` makes a transition only from `LIVE`. -/
theorem unitAfterCommand_release_of_ne {s : State} (h : s.unit ≠ .live) :
    unitAfterCommand s .release = s.unit := if_neg h

/-- No command leaves `FAULT` (R23, R166). -/
theorem unitAfterCommand_of_fault {s : State} (h : s.unit = .fault) (i : Instr) :
    unitAfterCommand s i = s.unit := by
  cases i with
  | new b k base => exact unitAfterCommand_new_of_not (by simp [h])
  | release => exact unitAfterCommand_release_of_ne (by simp [h])
  | insert x => rfl
  | contains x => rfl
  | rdcsr n => rfl

/-- Every outcome of a command leaves `STATE` where R23 says. -/
theorem Does.unit_eq {i : Instr} {s t : State} (h : Does i s t) : t.unit = unitAfterCommand s i := by
  cases h with
  | inFault hi hs => exact (unitAfterCommand_of_fault hs i).symm
  | newInLive hs => exact (unitAfterCommand_new_of_not (by simp [hs])).symm
  | newGeometry hs hg => exact (unitAfterCommand_new_of_not fun h => hg h.2).symm
  | newFatal hs hg ha => rw [unitAfterCommand_new_of_usable hs hg, if_neg ha, raiseFatal_unit]
  | newDone hs hg ha => rw [unitAfterCommand_new_of_usable hs hg, if_pos ha, respond_unit, openFilter_unit]
  | releaseInEmpty hs => exact (unitAfterCommand_release_of_ne (by simp [hs])).symm
  | releaseDone hs => exact (if_pos hs).symm
  | insertInEmpty | containsInEmpty | insertDone | containsDone | rdcsrDone | rdcsrIllegal => rfl

/-- Settles O35: a step is idle, a word (illegal or a command), a reset, or another agent's access; only a command and
a reset move `STATE`, a command by `Does.unit_eq`. -/
theorem unitStateTransitions : Obligations.UnitStateTransitions := by
  intro s t h
  rcases step_does h with ⟨hs, rfl⟩ | ⟨w, rest, e, hs, hw, rfl⟩ | ⟨w, rest, i, hs, hw, hd⟩ | ⟨rest, hs, rfl⟩ |
    ⟨addr, v, rest, hs, -, -, rfl⟩ | ⟨addr, rest, hs, -, -, rfl⟩
  · simp only [hs]
  · simp only [hs, hw, respond_unit]
  · have hunit := hd.unit_eq
    simp only [hs, hw]
    cases i <;> exact hunit
  · simp only [hs, resetUnit_unit]
  · simp only [hs]
  · simp only [hs]

end Sys2Proof.Machine
end

section
/-! SUPPORT. An access and the two accesses of its halves (20_memory.md R53 to R55): loads and stores split at a byte
boundary, and an access is answered exactly when its last byte is backed. -/

namespace Sys2Proof.Machine

/-! ### Loads and stores, split at a byte boundary -/

/-- A load of `n + k` bytes is the load of the upper `k` bytes above the load of the lower `n` bytes. -/
theorem Memory.load_add {u w n : Nat} (m : Memory) (addr k : Nat) (hn : 8 * n = w) :
    m.load (u + w) addr (n + k) = m.load u (addr + n) k ++ m.load w addr n := by
  apply BitVec.eq_of_getLsbD_eq
  intro p hp
  rw [BitVec.getLsbD_append, Memory.getLsbD_load, Memory.getLsbD_load, Memory.getLsbD_load]
  by_cases hlow : p < w
  · simp [hlow, hp, hn, show p < 8 * (n + k) by omega]
  · have hbyte : addr + n + (p - w) / 8 = addr + p / 8 := by omega
    have hbit : (p - w) % 8 = p % 8 := by omega
    have hlen : p - w < 8 * k ↔ p < 8 * (n + k) := by omega
    simp [hlow, hp, hbyte, hbit, hlen, show p - w < u by omega]

/-- A store depends on the bytes it writes and on nothing else of its value. -/
theorem Memory.store_congr {w w' n : Nat} {v : BitVec w} {v' : BitVec w'} (m : Memory) (addr : Nat)
    (h : ∀ j, j < n → byteOf v j = byteOf v' j) : m.store addr v n = m.store addr v' n := by
  induction n with
  | zero => rfl
  | succ n ih => rw [Memory.store, Memory.store, ih fun j hj => h j (by omega), h n (by omega)]

/-- A store of `n + k` bytes is the store of the lower `n` bytes, then that of the upper `k` bytes `v'`. -/
theorem Memory.store_add {w w' n k : Nat} {v : BitVec w} {v' : BitVec w'} (m : Memory) (addr : Nat)
    (h : ∀ j, j < k → byteOf v (n + j) = byteOf v' j) :
    m.store addr v (n + k) = (m.store addr v n).store (addr + n) v' k := by
  induction k with
  | zero => rfl
  | succ k ih =>
    rw [← Nat.add_assoc, Memory.store, Memory.store, ih fun j hj => h j (by omega), h k (by omega), Nat.add_assoc]

/-- Byte `j` of the bits of `v` from `8 * s` on is byte `s + j` of `v`. -/
theorem byteOf_extractLsb' {w len s j : Nat} (v : BitVec w) (hj : 8 * (j + 1) ≤ len) :
    byteOf (v.extractLsb' (8 * s) len) j = byteOf v (s + j) := by
  apply BitVec.eq_of_getLsbD_eq
  intro i hi
  have hin : 8 * j + i < len := by omega
  have hpos : 8 * s + (8 * j + i) = 8 * (s + j) + i := by omega
  rw [byteOf, byteOf, BitVec.getLsbD_extractLsb', BitVec.getLsbD_extractLsb', BitVec.getLsbD_extractLsb', hpos]
  simp [hin]

/-! ### When an access is answered (R53) -/

theorem memRead_of_backed {w : Nat} {c : Config} {addr : Nat} (m : Memory) (h : addr + w / 8 ≤ c.memBytes) :
    memRead w c m addr = some (m.load w addr (w / 8)) := if_pos h

theorem memRead_of_unbacked {w : Nat} {c : Config} {addr : Nat} (m : Memory) (h : ¬ addr + w / 8 ≤ c.memBytes) :
    memRead w c m addr = none := if_neg h

theorem memWrite_of_backed {w : Nat} {c : Config} {addr : Nat} (m : Memory) (v : BitVec w)
    (h : addr + w / 8 ≤ c.memBytes) : memWrite c m addr v = some (m.store addr v (w / 8)) := if_pos h

theorem memWrite_of_unbacked {w : Nat} {c : Config} {addr : Nat} (m : Memory) (v : BitVec w)
    (h : ¬ addr + w / 8 ≤ c.memBytes) : memWrite c m addr v = none := if_neg h

/-! ### A 32-byte access and its halves (R55) -/

/-- Where the 32 bytes are not all backed, the upper half has no result, so neither side has. -/
theorem memRead_eq_halves (c : Config) (m : Memory) (a : Nat) :
    memRead 256 c m a =
      (do let lo ← memRead 128 c m a
          let hi ← memRead 128 c m (a + 16)
          some (hi ++ lo)) := by
  by_cases h : a + 32 ≤ c.memBytes
  · have hlo : a + 128 / 8 ≤ c.memBytes := by omega
    have hhi : a + 16 + 128 / 8 ≤ c.memBytes := by omega
    rw [memRead_of_backed m h, memRead_of_backed m hlo, memRead_of_backed m hhi]
    exact congrArg some (Memory.load_add (u := 128) (w := 128) (n := 16) m a 16 rfl)
  · have hhi : ¬ a + 16 + 128 / 8 ≤ c.memBytes := by omega
    rw [memRead_of_unbacked m h, memRead_of_unbacked m hhi]
    cases memRead 128 c m a with
    | none => rfl
    | some lo => rfl

/-- The 32-byte store is the store of bits 127:0 and then, 16 bytes higher, that of bits 255:128. -/
theorem Memory.store_eq_halves (m : Memory) (a : Nat) (v : BitVec 256) :
    m.store a v 32 =
      (m.store a (v.extractLsb' 0 128) 16).store (a + 16) (v.extractLsb' 128 128) 16 := by
  have hlo : ∀ j, j < 16 → byteOf v j = byteOf (v.extractLsb' 0 128) j := fun j hj => by
    rw [byteOf_extractLsb' (s := 0) v (by omega), Nat.zero_add]
  have hhi : ∀ j, j < 16 → byteOf v (16 + j) = byteOf (v.extractLsb' 128 128) j := fun j hj =>
    (byteOf_extractLsb' (s := 16) v (by omega)).symm
  rw [← Memory.store_congr m a hlo]
  exact Memory.store_add (n := 16) (k := 16) m a hhi

theorem memWrite_eq_halves (c : Config) (m : Memory) (a : Nat) (v : BitVec 256) :
    memWrite c m a v =
      (do let m1 ← memWrite c m a (v.extractLsb' 0 128)
          memWrite c m1 (a + 16) (v.extractLsb' 128 128)) := by
  by_cases h : a + 32 ≤ c.memBytes
  · have hlo : a + 128 / 8 ≤ c.memBytes := by omega
    have hhi : a + 16 + 128 / 8 ≤ c.memBytes := by omega
    rw [memWrite_of_backed m v h, memWrite_of_backed m _ hlo]
    exact (congrArg some (Memory.store_eq_halves m a v)).trans (memWrite_of_backed _ _ hhi).symm
  · have hhi : ¬ a + 16 + 128 / 8 ≤ c.memBytes := by omega
    rw [memWrite_of_unbacked m v h]
    cases memWrite c m a (v.extractLsb' 0 128) with
    | none => rfl
    | some m1 => exact (memWrite_of_unbacked m1 _ hhi).symm

/-- Settles O16: the two halves of R55, at every address; the alignment is not needed. -/
theorem mixedWidthsSeeOneMemory : Obligations.MixedWidthsSeeOneMemory :=
  fun c m a _ => ⟨memRead_eq_halves c m a, memWrite_eq_halves c m a⟩

end Sys2Proof.Machine
end

section
/-! SUPPORT. The command word and its fields, and decoding against encoding (30_encoding.md R81 to R92). A word is
the concatenation of its three fields, so `encode i` is legal for a well-formed `i`, and a legal word is the encoding of
the command its fields give. -/

namespace Sys2Proof

/-! ### The word and its three fields (R81, R83) -/

/-- Concatenation as a sum. -/
theorem toNat_append_eq_add {m n : Nat} (x : BitVec m) (y : BitVec n) :
    (x ++ y).toNat = x.toNat * 2 ^ n + y.toNat := by
  rw [BitVec.toNat_append, ← Nat.shiftLeft_add_eq_or_of_lt y.isLt, Nat.shiftLeft_eq]

theorem commandWord_toNat (op : BitVec 8) (a b : Word64) :
    (commandWord op a b).toNat = op.toNat * 2 ^ 128 + a.toNat * 2 ^ 64 + b.toNat := by
  calc (commandWord op a b).toNat
      = (op ++ a).toNat * 2 ^ 64 + b.toNat := toNat_append_eq_add (op ++ a) b
    _ = (op.toNat * 2 ^ 64 + a.toNat) * 2 ^ 64 + b.toNat := by rw [toNat_append_eq_add]
    _ = op.toNat * 2 ^ 128 + a.toNat * 2 ^ 64 + b.toNat := by omega

/-- The fields above `B` are fields of `op ‖ a`. -/
theorem extractLsb'_commandWord {start len : Nat} (op : BitVec 8) (a b : Word64) (h : 64 ≤ start) :
    (commandWord op a b).extractLsb' start len = (op ++ a).extractLsb' (start - 64) len :=
  BitVec.extractLsb'_append_eq_of_le (xhi := op ++ a) (xlo := b) h

@[simp] theorem opField_commandWord (op : BitVec 8) (a b : Word64) : opField (commandWord op a b) = op :=
  (extractLsb'_commandWord op a b (by decide)).trans BitVec.extractLsb'_append_eq_left

@[simp] theorem aField_commandWord (op : BitVec 8) (a b : Word64) : aField (commandWord op a b) = a :=
  (extractLsb'_commandWord op a b (by decide)).trans BitVec.extractLsb'_append_eq_right

@[simp] theorem bField_commandWord (op : BitVec 8) (a b : Word64) : bField (commandWord op a b) = b :=
  BitVec.extractLsb'_append_eq_right (a := op ++ a)

/-- A word is the concatenation of its fields. -/
theorem commandWord_fields (w : CommandWord) : commandWord (opField w) (aField w) (bField w) = w := by
  have hhigh : opField w ++ aField w = w.extractLsb' 64 72 :=
    BitVec.extractLsb'_append_extractLsb'_eq_extractLsb' (start₂ := 128) (len₂ := 8) rfl
  calc commandWord (opField w) (aField w) (bField w)
      = w.extractLsb' 64 72 ++ w.extractLsb' 0 64 := congrArg (· ++ bField w) hhigh
    _ = w := BitVec.extractLsb'_append_extractLsb' (w := 72) (len := 64)

/-! ### Decoding against encoding (R83) -/

/-- The encoding of a well-formed command has the fields the command decodes from. -/
theorem decodesTo_encode {i : Instr} (h : wellFormed i = true) : decodesTo (encode i) i := by
  cases i with
  | new bitsPerKey expectedKeys base =>
    refine ⟨opField_commandWord _ _ _, ?_, ?_, bField_commandWord _ _ _⟩
    · rw [encode, aField_commandWord, BitVec.extractLsb'_append_eq_left]
    · rw [encode, aField_commandWord, BitVec.extractLsb'_append_eq_right]
  | insert hash | contains hash | release =>
    exact ⟨opField_commandWord _ _ _, aField_commandWord _ _ _, bField_commandWord _ _ _⟩
  | rdcsr csr =>
    have hcsr : csr ≤ 4 := of_decide_eq_true h
    exact ⟨opField_commandWord _ _ _, aField_commandWord _ _ _, hcsr, bField_commandWord _ _ _⟩

theorem wellFormed_of_decodesTo {w : CommandWord} {i : Instr} (h : decodesTo w i) : wellFormed i = true := by
  cases i with
  | new bitsPerKey expectedKeys base | insert hash | contains hash | release => rfl
  | rdcsr csr =>
    obtain ⟨-, -, hcsr, -⟩ := h
    exact decide_eq_true hcsr

/-- The encoding of a command is the word of the fields it decodes from. -/
theorem encode_eq_commandWord_fields {w : CommandWord} {i : Instr} (h : decodesTo w i) :
    encode i = commandWord (opField w) (aField w) (bField w) := by
  cases i with
  | new bitsPerKey expectedKeys base =>
    obtain ⟨hop, rfl, rfl, rfl⟩ := h
    have ha : (aField w).extractLsb' 32 32 ++ (aField w).extractLsb' 0 32 = aField w :=
      BitVec.extractLsb'_append_extractLsb' (w := 32) (len := 32)
    rw [hop, encode, ha, opcode]
  | insert hash | contains hash | release => obtain ⟨hop, ha, hb⟩ := h; rw [hop, ha, hb]; rfl
  | rdcsr csr => obtain ⟨hop, ha, -, hb⟩ := h; rw [hop, ha, hb]; rfl

theorem decode_encode {i : Instr} (h : wellFormed i = true) : decode (encode i) = .ok i :=
  decode_of_decodesTo (decodesTo_encode h)

theorem encode_of_decode {w : CommandWord} {i : Instr} (h : decode w = .ok i) : encode i = w :=
  (encode_eq_commandWord_fields (decodesTo_of_decode h)).trans (commandWord_fields w)

/-- Settles O1: the word as a number and as its fields, and the two directions by way of `decodesTo`. -/
theorem commandsAndWordsCorrespond : Obligations.CommandsAndWordsCorrespond :=
  ⟨fun op a b => ⟨commandWord_toNat op a b, opField_commandWord op a b, aField_commandWord op a b,
      bField_commandWord op a b⟩,
    commandWord_fields,
    fun _ => decode_encode,
    fun _ _ h => ⟨wellFormed_of_decodesTo (decodesTo_of_decode h), encode_of_decode h⟩⟩

/-- Settles O4: the five words are decoded; each encoding is then the word its command came from. -/
theorem workedEncodingsDecode : Obligations.WorkedEncodingsDecode := by
  have hnew : decode 0x0100000010000004000000000000010000 = .ok (.new 16 1024 0x10000) := by decide
  have hinsert : decode 0x029E3779B97F4A7C150000000000000000 = .ok (.insert 0x9E3779B97F4A7C15) := by decide
  have hcontains : decode 0x039E3779B97F4A7C150000000000000000 = .ok (.contains 0x9E3779B97F4A7C15) := by decide
  have hrelease : decode 0x0400000000000000000000000000000000 = .ok .release := by decide
  have hrdcsr : decode 0x0500000000000000040000000000000000 = .ok (.rdcsr 4) := by decide
  exact ⟨hnew, encode_of_decode hnew, hinsert, encode_of_decode hinsert, hcontains, encode_of_decode hcontains,
    hrelease, encode_of_decode hrelease, hrdcsr, encode_of_decode hrdcsr⟩

end Sys2Proof
end

section
/-! SUPPORT. The illegal words (30_encoding.md R88): which they are, and the step on one. -/

namespace Sys2Proof

/-- The opcodes, one by one: that of no command, or one of the five (R86). -/
theorem opcode_cases (op : BitVec 8) :
    (op = 0 ∨ 5 < op.toNat) ∨ op = 1 ∨ op = 2 ∨ op = 3 ∨ op = 4 ∨ op = 5 := by
  bv_omega

/-- A word is illegal iff its fields are those of no command. -/
theorem decode_isError_iff {w : CommandWord} : (∃ e, decode w = .error e) ↔ ∀ i, ¬ decodesTo w i := by
  simp only [← decode_eq_ok]
  cases decode w with
  | error e => simp
  | ok i => simp

/-- The fields of the legal words, opcode by opcode. -/
theorem exists_decodesTo_iff {w : CommandWord} : (∃ i, decodesTo w i) ↔
    opField w = 1 ∨ (opField w = 2 ∨ opField w = 3) ∧ bField w = 0 ∨
      opField w = 4 ∧ aField w = 0 ∧ bField w = 0 ∨
      opField w = 5 ∧ (aField w).toNat ≤ 4 ∧ bField w = 0 := by
  constructor
  · rintro ⟨i, h⟩
    cases i with
    | new bitsPerKey expectedKeys base => exact .inl h.1
    | insert hash => obtain ⟨hop, -, hb⟩ := h; exact .inr (.inl ⟨.inl hop, hb⟩)
    | contains hash => obtain ⟨hop, -, hb⟩ := h; exact .inr (.inl ⟨.inr hop, hb⟩)
    | release => exact .inr (.inr (.inl h))
    | rdcsr csr => obtain ⟨hop, rfl, ha, hb⟩ := h; exact .inr (.inr (.inr ⟨hop, ha, hb⟩))
  · rintro (hop | ⟨hop | hop, hb⟩ | h | ⟨hop, ha, hb⟩)
    · exact ⟨.new _ _ _, hop, rfl, rfl, rfl⟩
    · exact ⟨.insert _, hop, rfl, hb⟩
    · exact ⟨.contains _, hop, rfl, hb⟩
    · exact ⟨.release, h⟩
    · exact ⟨.rdcsr _, hop, rfl, ha, hb⟩

/-- The illegal words, (a) to (d) of R88: by opcode, what is left of `exists_decodesTo_iff`. -/
theorem decode_isError_iff_fields {w : CommandWord} : (∃ e, decode w = .error e) ↔
    ((opField w = 0 ∨ 5 < (opField w).toNat) ∨
      ((opField w = 2 ∨ opField w = 3) ∧ bField w ≠ 0) ∨
      (opField w = 4 ∧ (aField w ≠ 0 ∨ bField w ≠ 0)) ∨
      (opField w = 5 ∧ (4 < (aField w).toNat ∨ bField w ≠ 0))) := by
  rw [decode_isError_iff, ← not_exists, exists_decodesTo_iff]
  rcases opcode_cases (opField w) with (hop | hop) | hop | hop | hop | hop | hop
  · simp [hop]
  · have hne : ∀ n : BitVec 8, n.toNat ≤ 5 → opField w ≠ n := by rintro n hn rfl; omega
    simp [hop, hne]
  · simp [hop]
  · simp [hop]
  · simp [hop]
  · simp [hop, imp_iff_not_or]
  · simp [hop, imp_iff_not_or]

end Sys2Proof

namespace Sys2Proof.Machine

/-- An illegal word is answered `ERR_ILLEGAL` whatever the unit state (R88, R140). -/
theorem runWord_of_error {w : CommandWord} {e : DecodeError} (s : State) (h : decode w = .error e) :
    runWord w s = .next (respond s .errIllegal 0) := by
  unfold runWord
  rw [h]

/-- Settles O2: the illegal words by their fields; the step on one is `runWord` of it, which responds and no more. -/
theorem illegalWordsAreExactlyThese : Obligations.IllegalWordsAreExactlyThese :=
  ⟨fun _ => decode_isError_iff_fields,
    fun _ _ _ _ hs he => (step_cons hs).trans (runWord_of_error _ he)⟩

end Sys2Proof.Machine
end

section
/-! SUPPORT. The sizing rule (40_bucket_layout_sizing.md R102 to R104): the two ways of the rounding, and the bounds of
each step of `Geometry`. -/

namespace Sys2Proof.Machine

/-! ### The rounding, by the place of `raw` in its line -/

/-- In the lower half of a line the rounding goes down to the line's start. -/
theorem roundToLine_add_mod_of_lt {raw : Nat} (h : raw % 64 < 32) : roundToLine raw + raw % 64 = raw := by
  unfold roundToLine
  omega

/-- From the middle of a line on, the tie with it, the rounding goes up to the next line. -/
theorem roundToLine_add_mod_of_ge {raw : Nat} (h : 32 ≤ raw % 64) : roundToLine raw + raw % 64 = raw + 64 := by
  unfold roundToLine
  omega

theorem roundToLine_mod (raw : Nat) : roundToLine raw % 64 = 0 := Nat.mul_mod_left _ _

theorem roundToLine_le (raw : Nat) : roundToLine raw ≤ raw + 32 := Nat.div_mul_le_self _ _

/-- Settles O11: `Geometry` rounds `rawBytes` by its definition; every clause is about the half of a line in which
`raw` lies. -/
theorem sizeIsTheNearestLineMultiple : Obligations.SizeIsTheNearestLineMultiple := by
  refine ⟨fun _ _ => rfl, fun raw => ⟨roundToLine_mod raw, ?_⟩⟩
  rcases Nat.lt_or_ge (raw % 64) 32 with hlow | hhigh
  · have hdown := roundToLine_add_mod_of_lt hlow
    omega
  · have hup := roundToLine_add_mod_of_ge hhigh
    omega

/-! ### The size of each step -/

/-- The product of two words of 32 bits (R103). -/
theorem toNat_mul_toNat_le (a b : BitVec 32) : a.toNat * b.toNat ≤ (2 ^ 32 - 1) ^ 2 :=
  calc a.toNat * b.toNat
    _ ≤ (2 ^ 32 - 1) * (2 ^ 32 - 1) := Nat.mul_le_mul (Nat.le_sub_one_of_lt a.isLt) (Nat.le_sub_one_of_lt b.isLt)
    _ = (2 ^ 32 - 1) ^ 2 := (Nat.pow_two _).symm

theorem rawBytes_lt (bitsPerKey expectedKeys : BitVec 32) : rawBytes bitsPerKey expectedKeys < 2 ^ 61 :=
  Nat.div_lt_of_lt_mul (Nat.lt_of_le_of_lt (toNat_mul_toNat_le bitsPerKey expectedKeys) (by decide))

theorem geometryBytes_le (bitsPerKey expectedKeys : BitVec 32) :
    geometryBytes bitsPerKey expectedKeys ≤ rawBytes bitsPerKey expectedKeys + 32 := roundToLine_le _

/-- Settles O12: `rawBytes_lt` bounds the sum, and `geometryBytes_le` the rounded size by the sum. -/
theorem geometryFitsSixtyFourBits : Obligations.GeometryFitsSixtyFourBits := by
  intro bitsPerKey expectedKeys
  have hraw := rawBytes_lt bitsPerKey expectedKeys
  have hsize := geometryBytes_le bitsPerKey expectedKeys
  have hsum : rawBytes bitsPerKey expectedKeys + 32 < 2 ^ 62 := by omega
  exact ⟨toNat_mul_toNat_le bitsPerKey expectedKeys, hraw, hsum, hsize, Nat.lt_of_le_of_lt hsize hsum⟩

end Sys2Proof.Machine
end

section
/-! SUPPORT. The bucket index (41_index_mask.md R110 to R112): from its value, the floor of `hi * n / 2 ^ 32`, to its
shape as a function of `hi` and of the bucket count. -/

namespace Sys2Proof.Machine

theorem hashHi_toNat (h : Word64) : (hashHi h).toNat = h.toNat / 2 ^ 32 := by
  have hlt : h.toNat / 2 ^ 32 < 2 ^ 32 := Nat.div_lt_of_lt_mul h.isLt
  rw [hashHi, BitVec.extractLsb'_toNat, Nat.shiftRight_eq_div_pow, Nat.mod_eq_of_lt hlt]

/-! ### As a function of `hi` -/

theorem bucketIndex_mono {h h' : Word64} (n : BitVec 32) (hle : (hashHi h).toNat ≤ (hashHi h').toNat) :
    (bucketIndex h n).toNat ≤ (bucketIndex h' n).toNat := by
  rw [bucketIndex_toNat, bucketIndex_toNat]
  exact Nat.div_le_div_right (Nat.mul_le_mul_right n.toNat hle)

/-- The index does not depend on `lo`. -/
theorem bucketIndex_congr {h h' : Word64} (n : BitVec 32) (hhi : hashHi h' = hashHi h) :
    bucketIndex h' n = bucketIndex h n := by
  rw [bucketIndex, hhi, bucketIndex]

theorem bucketIndex_of_hashHi_eq_zero {h : Word64} (n : BitVec 32) (hhi : hashHi h = 0) : bucketIndex h n = 0 := by
  apply BitVec.eq_of_toNat_eq
  simp [bucketIndex_toNat, hhi]

/-- The largest `hi` selects the last bucket: its product is `2 ^ 32 * n - n`, less than one `2 ^ 32` below
`2 ^ 32 * n`. -/
theorem bucketIndex_of_hashHi_eq_allOnes {h : Word64} {n : BitVec 32} (hhi : hashHi h = 0xFFFFFFFF)
    (hn : 1 ≤ n.toNat) : (bucketIndex h n).toNat = n.toNat - 1 := by
  have hmax : (hashHi h).toNat = 2 ^ 32 - 1 := congrArg BitVec.toNat hhi
  have hlt := n.isLt
  rw [bucketIndex_toNat, hmax]
  omega

/-! ### As a function of the bucket count -/

/-- With `2 ^ k` buckets the index is the top `k` bits of the hash: the product shifts `hi` left by `k`, which leaves
`32 - k` of the 32 bits that the division drops. -/
theorem bucketIndex_of_two_pow (h : Word64) {n : BitVec 32} {k : Nat} (hn : n.toNat = 2 ^ k) :
    (bucketIndex h n).toNat = h.toNat / 2 ^ (64 - k) := by
  have hk : k < 32 := (Nat.pow_lt_pow_iff_right (by decide)).mp (hn ▸ n.isLt)
  have hdrop : 2 ^ 32 = 2 ^ (32 - k) * 2 ^ k := by rw [← Nat.pow_add, Nat.sub_add_cancel hk.le]
  calc (bucketIndex h n).toNat
      = (hashHi h).toNat * 2 ^ k / 2 ^ 32 := by rw [bucketIndex_toNat, hn]
    _ = (hashHi h).toNat * 2 ^ k / (2 ^ (32 - k) * 2 ^ k) := by rw [← hdrop]
    _ = (hashHi h).toNat / 2 ^ (32 - k) := Nat.mul_div_mul_right _ _ (Nat.two_pow_pos k)
    _ = h.toNat / (2 ^ 32 * 2 ^ (32 - k)) := by rw [hashHi_toNat, Nat.div_div_eq_div_mul]
    _ = h.toNat / 2 ^ (64 - k) := by rw [← Nat.pow_add, ← Nat.add_sub_assoc hk.le]

theorem bucketIndex_zero (h : Word64) : bucketIndex h 0 = 0 := by
  apply BitVec.eq_of_toNat_eq
  simp [bucketIndex_toNat]

/-- Settles O14: the value `bucketIndex_toNat`, its bound, and one lemma per clause on `hi` and the bucket count. -/
theorem bucketIndexIsFastrange : Obligations.BucketIndexIsFastrange := fun h n =>
  ⟨bucketIndex_lt, bucketIndex_toNat h n, fun _ => bucketIndex_mono n, bucketIndex_of_hashHi_eq_zero n,
    bucketIndex_of_hashHi_eq_allOnes, fun _ => bucketIndex_congr n, fun _ => bucketIndex_of_two_pow h,
    fun hn => hn ▸ bucketIndex_zero h⟩

end Sys2Proof.Machine
end

section
/-! SUPPORT. The subset test (42_kernel_backends.md R124): the forms in which "every bit of `m` is in `a`" is asked. -/

namespace Sys2Proof

/-- The bits of `m` are bits of `a`: the form the other forms are compared with. -/
theorem and_eq_right_iff_bits {w : Nat} {a m : BitVec w} :
    a &&& m = m ↔ ∀ p, m.getLsbD p = true → a.getLsbD p = true := by
  constructor
  · intro h p hp
    rw [← h, BitVec.getLsbD_and, Bool.and_eq_true] at hp
    exact hp.1
  · intro h
    apply BitVec.eq_of_getLsbD_eq
    intro p _
    rw [BitVec.getLsbD_and]
    cases hp : m.getLsbD p with
    | false => exact Bool.and_false _
    | true => rw [h p hp]; rfl

theorem not_and_eq_zero_iff_bits {w : Nat} {a m : BitVec w} :
    ~~~a &&& m = 0 ↔ ∀ p, m.getLsbD p = true → a.getLsbD p = true := by
  constructor
  · intro h p hp
    have hbit : (~~~a &&& m).getLsbD p = false := by rw [h]; exact BitVec.getLsbD_zero
    have hpw : p < w := BitVec.lt_of_getLsbD hp
    rw [BitVec.getLsbD_and, BitVec.getLsbD_not, hp] at hbit
    simpa only [hpw, decide_true, Bool.true_and, Bool.and_true, Bool.not_eq_false'] using hbit
  · intro h
    apply BitVec.eq_of_getLsbD_eq
    intro p _
    rw [BitVec.getLsbD_and, BitVec.getLsbD_not]
    cases hp : m.getLsbD p with
    | false => simp
    | true => simp [h p hp]

theorem not_and_eq_zero_iff {w : Nat} {a m : BitVec w} : ~~~a &&& m = 0 ↔ a &&& m = m :=
  not_and_eq_zero_iff_bits.trans and_eq_right_iff_bits.symm

/-! ### By halves -/

/-- A bucket is its bits 255:128 above its bits 127:0. -/
theorem halves_append (v : Bucket) : v.extractLsb' 128 128 ++ v.extractLsb' 0 128 = v :=
  BitVec.extractLsb'_append_extractLsb' (w := 128) (len := 128)

theorem eq_iff_halves {a b : Bucket} :
    a = b ↔ a.extractLsb' 0 128 = b.extractLsb' 0 128 ∧ a.extractLsb' 128 128 = b.extractLsb' 128 128 := by
  constructor
  · rintro rfl
    exact ⟨rfl, rfl⟩
  · rintro ⟨hlo, hhi⟩
    rw [← halves_append a, ← halves_append b, hlo, hhi]

theorem and_eq_right_iff_halves {a m : Bucket} :
    a &&& m = m ↔ a.extractLsb' 0 128 &&& m.extractLsb' 0 128 = m.extractLsb' 0 128 ∧
      a.extractLsb' 128 128 &&& m.extractLsb' 128 128 = m.extractLsb' 128 128 := by
  rw [eq_iff_halves, BitVec.extractLsb'_and, BitVec.extractLsb'_and]

/-! ### By lanes -/

theorem lane_and {w : Nat} (a b : BitVec w) (i : Nat) : lane (a &&& b) i = lane a i &&& lane b i :=
  BitVec.extractLsb'_and

theorem lane_or {w : Nat} (a b : BitVec w) (i : Nat) : lane (a ||| b) i = lane a i ||| lane b i :=
  BitVec.extractLsb'_or

theorem lane_extractLsb' {w len i : Nat} (v : BitVec w) (k : Nat) (hi : 32 * (i + 1) ≤ len) :
    lane (v.extractLsb' (32 * k) len) i = lane v (k + i) := by
  apply BitVec.eq_of_getLsbD_eq
  intro j hj
  have hin : 32 * i + j < len := by omega
  have hpos : 32 * k + (32 * i + j) = 32 * (k + i) + j := by omega
  simp only [lane, BitVec.getLsbD_extractLsb', hin, hpos, decide_true, Bool.true_and]

theorem and_eq_right_iff_lanes {w : Nat} {a m : BitVec w} (hw : w % 32 = 0) :
    a &&& m = m ↔ ∀ i, i < w / 32 → lane a i &&& lane m i = lane m i := by
  constructor
  · intro h i _
    rw [← lane_and, h]
  · intro h
    refine Machine.eq_of_lanes hw fun i hi => ?_
    rw [lane_and, h i hi]

/-- A lane holds the one bit of `1 << k` iff its bit `k` is set. -/
theorem and_one_shiftLeft_eq_iff {x : Lane} {k : Nat} (hk : k < 32) :
    x &&& 1#32 <<< k = 1#32 <<< k ↔ x.getLsbD k = true := by
  rw [← BitVec.twoPow_eq, and_eq_right_iff_bits]
  simp [BitVec.getLsbD_twoPow, hk]

end Sys2Proof

namespace Sys2Proof.Machine

/-- The mask has the one bit `acc[i]` in lane `i` (R115), so the test asks for that bit of each lane. -/
theorem and_mask_eq_iff (c : Config) (h : Word64) (bucket : Bucket) :
    bucket &&& mask c h = mask c h ↔ ∀ i, i < 8 → (lane bucket i).getLsbD (maskExp c h i).toNat = true := by
  rw [and_eq_right_iff_lanes (by decide)]
  refine forall₂_congr fun i hi => ?_
  rw [lane_mask c h hi, maskLane]
  exact and_one_shiftLeft_eq_iff (maskExp c h i).isLt

/-- Settles O18: each form is compared with "the bits of `m` are bits of the bucket", the last with the lanes of the
mask. -/
theorem subsetTestFormsAgree : Obligations.SubsetTestFormsAgree :=
  ⟨fun _ _ => ⟨not_and_eq_zero_iff.symm, and_eq_right_iff_bits, and_eq_right_iff_halves⟩, and_mask_eq_iff⟩

end Sys2Proof.Machine
end

section
/-! SUPPORT. Mask generation in vector registers (42_kernel_backends.md R126, R129): the registers hold `Mask(h)` and
its two halves. -/

namespace Sys2Proof.Machine

/-- The exponent of a lane is its product shifted right by 27, which is below 32: nothing is cut off (R114). -/
theorem maskExp_toNat (c : Config) (h : Word64) (i : Nat) :
    (maskExp c h i).toNat = (mul32lo (c.saltLane i) (hashLo h) >>> 27).toNat := by
  have hlt := (mul32lo (c.saltLane i) (hashLo h)).isLt
  rw [maskExp, BitVec.extractLsb'_toNat, BitVec.toNat_ushiftRight, Nat.shiftRight_zero, Nat.shiftRight_eq_div_pow]
  exact Nat.mod_eq_of_lt (by omega)

/-- Where lane `i` of a register of salts is `SALT[k]`, lane `i` of the mask register is `lane_k` of the mask. -/
theorem lane_maskRegister_of_salt {w i k : Nat} {c : Config} {salts : BitVec w} (h : Word64) (hi : i < w / 32)
    (hsalt : lane salts i = c.saltLane k) : lane (maskRegister salts h) i = maskLane c h k := by
  rw [lane_maskRegister salts h hi, hsalt, maskLane, maskExp_toNat]

theorem maskRegister_salt256 (c : Config) (h : Word64) : maskRegister (salt256 c) h = mask c h := by
  refine eq_of_lanes (by decide) fun i hi => ?_
  rw [lane_maskRegister_of_salt h hi (lane_salt256 c hi), lane_mask c h hi]

/-- `VM_LO = MaskLo(h)` (R129). -/
theorem maskRegister_saltLo (c : Config) (h : Word64) :
    maskRegister (saltLo c) h = (mask c h).extractLsb' 0 128 := by
  refine eq_of_lanes (by decide) fun i hi => ?_
  have hhalf : lane ((mask c h).extractLsb' 0 128) i = lane (mask c h) i := by
    rw [lane_extractLsb' (mask c h) 0 (by omega), Nat.zero_add]
  rw [lane_maskRegister_of_salt h hi (lane_saltLo c hi), hhalf, lane_mask c h (by omega)]

/-- `VM_HI = MaskHi(h)` (R129). -/
theorem maskRegister_saltHi (c : Config) (h : Word64) :
    maskRegister (saltHi c) h = (mask c h).extractLsb' 128 128 := by
  refine eq_of_lanes (by decide) fun i hi => ?_
  have hhalf : lane ((mask c h).extractLsb' 128 128) i = lane (mask c h) (i + 4) := by
    rw [lane_extractLsb' (mask c h) 4 (by omega), Nat.add_comm]
  rw [lane_maskRegister_of_salt h hi (lane_saltHi c hi), hhalf, lane_mask c h (by omega)]

/-- `VM_HI ‖ VM_LO = Mask(h)` (R129). -/
theorem maskRegister_append (c : Config) (h : Word64) :
    maskRegister (saltHi c) h ++ maskRegister (saltLo c) h = mask c h := by
  rw [maskRegister_saltHi, maskRegister_saltLo, halves_append]

/-- Settles O19: the lane-wise expressions are `maskRegister` by definition, so its three values serve. -/
theorem backendsBuildTheMask : Obligations.BackendsBuildTheMask := fun c h =>
  ⟨maskRegister_salt256 c h, rfl, maskRegister_saltLo c h, rfl, maskRegister_saltHi c h, rfl,
    maskRegister_append c h⟩

end Sys2Proof.Machine
end

section
/-! SUPPORT. The backends against the contract (42_kernel_backends.md R121 to R131): the vector operations as whole
words, the contract under its precondition, and the halves of a bucket put together. -/

namespace Sys2Proof.Machine

/-! ### The vector operations as whole words (R125) -/

theorem vor_eq_or {w : Nat} (hw : w % 32 = 0) (a b : BitVec w) : vor a b = a ||| b :=
  eq_of_lanes hw fun i hi => by rw [vor, lane_lanewise _ hi, lane_or]

/-- `vtestc` is the subset test (R124, R125). -/
theorem vtestc_eq_true_iff {w : Nat} (hw : w % 32 = 0) {a m : BitVec w} : vtestc a m = true ↔ a &&& m = m := by
  simp only [vtestc, List.all_eq_true, List.mem_range, beq_iff_eq, and_eq_right_iff_lanes hw]
  exact forall₂_congr fun _ _ => not_and_eq_zero_iff

theorem vtestc_eq_beq {w : Nat} (hw : w % 32 = 0) (a m : BitVec w) : vtestc a m = (a &&& m == m) := by
  rw [Bool.eq_iff_iff, vtestc_eq_true_iff hw, beq_iff_eq]

/-- Both halves pass iff the bucket passes (R124). -/
theorem vtestc_halves (a m : Bucket) :
    (vtestc (a.extractLsb' 0 128) (m.extractLsb' 0 128) && vtestc (a.extractLsb' 128 128) (m.extractLsb' 128 128)) =
      (a &&& m == m) := by
  rw [Bool.eq_iff_iff, Bool.and_eq_true, vtestc_eq_true_iff (by decide), vtestc_eq_true_iff (by decide), beq_iff_eq,
    and_eq_right_iff_halves]

/-! ### A bucket in memory, by halves -/

theorem Memory.load_append_halves (m : Memory) (addr : Nat) :
    m.load 128 (addr + 16) 16 ++ m.load 128 addr 16 = m.load 256 addr 32 :=
  (Memory.load_add (u := 128) (w := 128) (n := 16) m addr 16 rfl).symm

theorem Memory.load_lowHalf (m : Memory) (addr : Nat) :
    m.load 128 addr 16 = (m.load 256 addr 32).extractLsb' 0 128 := by
  rw [← Memory.load_append_halves, BitVec.extractLsb'_append_eq_right]

theorem Memory.load_highHalf (m : Memory) (addr : Nat) :
    m.load 128 (addr + 16) 16 = (m.load 256 addr 32).extractLsb' 128 128 := by
  rw [← Memory.load_append_halves, BitVec.extractLsb'_append_eq_left]

/-! ### The contract and the backends under the precondition -/

section
variable {c : Config} {base : Word64} {n : BitVec 32}

theorem kernelContainsRef_eq (m : Memory) (h : Word64) (hp : kernelPre c base n) :
    kernelContainsRef c m base n h =
      some (m.load 256 (bucketAddr base (bucketIndex h n)) 32 &&& mask c h == mask c h) := by
  obtain ⟨-, -, hend, hbacked⟩ := bucketAddr_backed h hp
  have hread := memRead_of_backed (w := 256) m (hend.trans hbacked)
  simp [kernelContainsRef, hp, hread]

theorem kernelInsertRef_eq (m : Memory) (h : Word64) (hp : kernelPre c base n) :
    kernelInsertRef c m base n h =
      some (m.load 256 (bucketAddr base (bucketIndex h n)) 32 &&& mask c h == mask c h,
        m.store (bucketAddr base (bucketIndex h n))
          (m.load 256 (bucketAddr base (bucketIndex h n)) 32 ||| mask c h) 32) := by
  obtain ⟨-, -, hend, hbacked⟩ := bucketAddr_backed h hp
  have hread := memRead_of_backed (w := 256) m (hend.trans hbacked)
  have hwrite := fun v => memWrite_of_backed (w := 256) m v (hend.trans hbacked)
  simp [kernelInsertRef, hp, hread, hwrite]

/-- The kernel of either backend gives the contract's boolean and leaves memory alone: for `V256` the register is the
bucket (R127), for `V128P` the two tests are those of its halves (R130). -/
theorem kernelContains_refines (m : Memory) (h : Word64) (hp : kernelPre c base n) :
    (kernelContains c m base n h).map (fun r => (r.status, r.mem)) =
      (kernelContainsRef c m base n h).map (fun b => (b, m)) := by
  rw [kernelContains_eq hp, kernelContainsRef_eq m h hp, Option.map_some, Option.map_some]
  generalize bucketAddr base (bucketIndex h n) = addr
  cases c.backend with
  | v256 => simp only [maskRegister_salt256, vtestc_eq_beq]
  | v128p =>
    simp only [maskRegister_saltLo, maskRegister_saltHi, Memory.load_lowHalf m addr, Memory.load_highHalf m addr,
      vtestc_halves]

/-- The kernel of either backend gives the contract's boolean and memory: for `V256` the register is the bucket (R128),
for `V128P` the two tests and the two stores are those of its halves (R131). -/
theorem kernelInsert_refines (m : Memory) (h : Word64) (hp : kernelPre c base n) :
    (kernelInsert c m base n h).map (fun r => (r.status, r.mem)) = kernelInsertRef c m base n h := by
  rw [kernelInsert_eq hp, kernelInsertRef_eq m h hp, Option.map_some]
  generalize bucketAddr base (bucketIndex h n) = addr
  cases c.backend with
  | v256 => simp only [maskRegister_salt256, vtestc_eq_beq, vor_eq_or]
  | v128p =>
    simp only [maskRegister_saltLo, maskRegister_saltHi, Memory.load_lowHalf m addr, Memory.load_highHalf m addr,
      vtestc_halves, vor_eq_or, ← BitVec.extractLsb'_or, ← Memory.store_eq_halves]

end

/-- Settles O20: under the precondition by the refinements, each taken with the backend named, which no contract depends
on; without it no kernel and no contract has an answer (R58). -/
theorem backendsRefineTheContract : Obligations.BackendsRefineTheContract := by
  intro c m base n h
  by_cases hp : kernelPre c base n
  · exact ⟨kernelInsert_refines (c := { c with backend := .v256 }) m h hp,
      kernelInsert_refines (c := { c with backend := .v128p }) m h hp,
      kernelContains_refines (c := { c with backend := .v256 }) m h hp,
      kernelContains_refines (c := { c with backend := .v128p }) m h hp⟩
  · simp only [kernelInsertV256, kernelInsertV128P, kernelContainsV256, kernelContainsV128P, kernelInsertRef,
      kernelContainsRef, if_neg hp, Option.map_none, and_self]

end Sys2Proof.Machine
end

section
/-! SUPPORT. `NEW` in `EMPTY` (43_filter_commands.md R141 to R145): what it answers for an unusable and for a usable
geometry, and the filter it makes. -/

namespace Sys2Proof.Machine

/-! ### The registers' values of the geometry (R102 to R105) -/

/-- `BYTE_LENGTH` and the response's data hold every computed length whole, an unusable one too (R103, R142). -/
theorem ofNat_geometryBytes_toNat (bitsPerKey expectedKeys : BitVec 32) :
    (BitVec.ofNat 64 (geometryBytes bitsPerKey expectedKeys)).toNat = geometryBytes bitsPerKey expectedKeys := by
  have hraw := rawBytes_lt bitsPerKey expectedKeys
  have hsize := geometryBytes_le bitsPerKey expectedKeys
  exact Nat.mod_eq_of_lt (by omega)

/-- `BUCKET_COUNT` holds the bucket count of a usable geometry whole (R105). -/
theorem ofNat_bucketsIn_toNat {bytes : Nat} (h : geometryOK bytes) :
    (BitVec.ofNat 32 (bucketsIn bytes)).toNat = bytes / 32 := by
  obtain ⟨-, hlt⟩ := h
  exact Nat.mod_eq_of_lt (Nat.div_lt_of_lt_mul hlt)

/-! ### The filter a `NEW` makes (R145) -/

/-- The state with the region at `base` zero-filled and opened as a filter, before the response goes out. -/
def zeroedFilter (s : State) (base : Word64) (bytes : Nat) : State :=
  openFilter (accessMemory s (s.mem.zeroFill base.toNat bytes) [.zeroFill base.toNat bytes]) base bytes
    (bucketsIn bytes)

theorem zeroedFilter_peek_inside (s : State) {base : Word64} {bytes x : Nat} (hlo : base.toNat ≤ x)
    (hhi : x < base.toNat + bytes) : (zeroedFilter s base bytes).mem.peek x = 0 :=
  (Memory.peek_zeroFill s.mem base.toNat bytes x).trans (if_pos ⟨hlo, hhi⟩)

theorem zeroedFilter_peek_outside (s : State) {base : Word64} {bytes x : Nat}
    (h : x < base.toNat ∨ base.toNat + bytes ≤ x) : (zeroedFilter s base bytes).mem.peek x = s.mem.peek x :=
  (Memory.peek_zeroFill s.mem base.toNat bytes x).trans (if_neg (by omega))

/-- The registers are tied together as R33 (a) asks: a usable geometry is a positive number of whole lines, of two
buckets each (R105, R106). -/
theorem zeroedFilter_liveRegisters {s : State} {bitsPerKey expectedKeys : BitVec 32} {base : Word64}
    (hg : geometryOK (geometryBytes bitsPerKey expectedKeys))
    (ha : allocOK s.config base (geometryBytes bitsPerKey expectedKeys)) :
    (zeroedFilter s base (geometryBytes bitsPerKey expectedKeys)).LiveRegisters := by
  have hlines : geometryBytes bitsPerKey expectedKeys % 64 = 0 := roundToLine_mod _
  have hlength := ofNat_geometryBytes_toNat bitsPerKey expectedKeys
  have hcount := ofNat_bucketsIn_toNat hg
  obtain ⟨hmin, hmax⟩ := hg
  obtain ⟨halign, hbacked⟩ := ha
  simp only [State.LiveRegisters, zeroedFilter, openFilter_base, openFilter_byteLength, openFilter_bucketCount,
    openFilter_config, accessMemory_config, hlength, hcount]
  omega

/-! ### What `NEW` answers in `EMPTY` -/

section
variable {s : State} {bitsPerKey expectedKeys : BitVec 32} {base : Word64}

/-- R142: the refusal is the response alone. -/
theorem exec_new_of_unusable (hs : s.unit = .empty) (hg : ¬ geometryOK (geometryBytes bitsPerKey expectedKeys)) :
    exec (.new bitsPerKey expectedKeys base) s =
      .next (respond s .errGeometry (BitVec.ofNat 64 (geometryBytes bitsPerKey expectedKeys))) :=
  (performIn_legal (by simp [hs]) hs).trans (if_pos hg)

/-- R145: the region is zero-filled and opened as a filter, and the length goes out. -/
theorem exec_new_of_usable (hs : s.unit = .empty) (hg : geometryOK (geometryBytes bitsPerKey expectedKeys))
    (ha : allocOK s.config base (geometryBytes bitsPerKey expectedKeys)) :
    exec (.new bitsPerKey expectedKeys base) s =
      .next (respond (zeroedFilter s base (geometryBytes bitsPerKey expectedKeys)) .ok
        (BitVec.ofNat 64 (geometryBytes bitsPerKey expectedKeys))) :=
  (performIn_legal (by simp [hs]) hs).trans ((if_neg (not_not.2 hg)).trans (if_neg (not_not.2 ha)))

end

/-- Settles O23: the answer is `zeroedFilter` with its response; the ports and the registers are its fields as written,
their numeric values are the computed geometry's, and memory is the zero-fill's inside and outside the buffer. -/
theorem newMakesAZeroedFilter : Obligations.NewMakesAZeroedFilter := by
  intro s bitsPerKey expectedKeys base bytes hs hg ha
  have hlength : (BitVec.ofNat 64 bytes).toNat = bytes := ofNat_geometryBytes_toNat bitsPerKey expectedKeys
  have hcount : (BitVec.ofNat 32 (bucketsIn bytes)).toNat = bytes / 32 := ofNat_bucketsIn_toNat hg
  have hregisters : (zeroedFilter s base bytes).LiveRegisters := zeroedFilter_liveRegisters hg ha
  exact ⟨_, exec_new_of_usable hs hg ha, rfl, rfl, hlength, hcount, rfl, rfl, rfl, rfl, rfl, hregisters,
    fun _ => zeroedFilter_peek_inside s, fun _ => zeroedFilter_peek_outside s⟩

/-- Settles O25: either range is outside `GeometryOK`, and no computed length is too long for the response's data. -/
theorem newRefusesAnUnusableGeometry : Obligations.NewRefusesAnUnusableGeometry := by
  intro s bitsPerKey expectedKeys base hs hrange
  have hunusable : ¬ geometryOK (geometryBytes bitsPerKey expectedKeys) := by
    rintro ⟨hmin, hmax⟩
    omega
  exact ⟨exec_new_of_unusable hs hunusable, ofNat_geometryBytes_toNat bitsPerKey expectedKeys⟩

end Sys2Proof.Machine
end

section
/-! SUPPORT. The step on a presented word, and the admission of its command: the state a command is legal in, and the
answers `FATAL` and `ERR_STATE` in the others (43_filter_commands.md R140, 60_exceptions.md R163, R166). -/

namespace Sys2Proof.Machine

/-! ### A presented word -/

/-- A legal word is its command (R140). -/
theorem runWord_of_ok {w : CommandWord} {i : Instr} (s : State) (h : decode w = .ok i) : runWord w s = exec i s := by
  unfold runWord
  rw [h]

section
variable {s t : State} {w : CommandWord} {rest : List HostAction}

theorem step_of_decode_ok {i : Instr} (hs : s.hostActions = .present w :: rest) (hw : decode w = .ok i) :
    step s = exec i { s with hostActions := rest } := (step_cons hs).trans (runWord_of_ok _ hw)

theorem step_of_decode_error {e : DecodeError} (hs : s.hostActions = .present w :: rest) (hw : decode w = .error e) :
    step s = .next (respond { s with hostActions := rest } .errIllegal 0) :=
  (step_cons hs).trans (runWord_of_error _ hw)

/-- A step on a presented word answers that the word is illegal, or does what its command does. -/
theorem step_present_does (hs : s.hostActions = .present w :: rest) (h : step s = .next t) :
    (∃ e, decode w = .error e ∧ t = respond { s with hostActions := rest } .errIllegal 0) ∨
      ∃ i, decode w = .ok i ∧ Does i { s with hostActions := rest } t := by
  cases hw : decode w with
  | error e => exact .inl ⟨e, rfl, Host.Outcome.next.inj (h.symm.trans (step_of_decode_error hs hw))⟩
  | ok i => exact .inr ⟨i, rfl, exec_does ((step_of_decode_ok hs hw).symm.trans h)⟩

end

/-! ### Admission -/

/-- The one unit state a command is legal in (R163); `RDCSR` is performed in every one. -/
def requiredUnit : Instr → Option UnitState
  | .new _ _ _ => some .empty
  | .insert _ => some .live
  | .contains _ => some .live
  | .release => some .live
  | .rdcsr _ => none

theorem requiredUnit_of_ne_rdcsr {i : Instr} (h : ∀ n, i ≠ .rdcsr n) : ∃ u, requiredUnit i = some u := by
  cases i with
  | rdcsr n => exact absurd rfl (h n)
  | new | insert | contains | release => exact ⟨_, rfl⟩

/-- Every command with a required state goes through `performIn` of that state (R140, lines 3 to 5). -/
theorem exec_eq_performIn {i : Instr} {u : UnitState} (h : requiredUnit i = some u) (s : State) :
    ∃ perform, exec i s = performIn u s perform := by
  cases i with
  | rdcsr n => cases h
  | new | insert | contains | release => cases h; exact ⟨_, rfl⟩

theorem exec_of_fault {i : Instr} {s : State} (hi : ∀ n, i ≠ .rdcsr n) (hs : s.unit = .fault) :
    exec i s = .next (respond s .fatal 0) := by
  obtain ⟨u, hu⟩ := requiredUnit_of_ne_rdcsr hi
  obtain ⟨perform, hexec⟩ := exec_eq_performIn hu s
  exact hexec.trans (performIn_fault hs)

theorem exec_of_wrong_unit {i : Instr} {u : UnitState} {s : State} (hu : requiredUnit i = some u)
    (hf : s.unit ≠ .fault) (hs : s.unit ≠ u) : exec i s = .next (respond s .errState 0) := by
  obtain ⟨perform, hexec⟩ := exec_eq_performIn hu s
  exact hexec.trans (performIn_wrong hf hs)

/-- `RDCSR` asks for no unit state (R152). -/
theorem exec_rdcsr_of_number {n : Word64} {r : Csr} (s : State) (h : csrOfNumber n = some r) :
    exec (.rdcsr n) s = .next (respond s .ok (readCsr s r)) := by
  show execRdcsr n s = _
  unfold execRdcsr
  rw [h]

/-- Settles O32: each of the four commands requires the other of the two states, so admission refuses it. -/
theorem commandsOutOfOrderAreRefused : Obligations.CommandsOutOfOrderAreRefused := by
  refine fun s => ⟨fun hs b k base => exec_of_wrong_unit rfl (by simp [hs]) (by simp [hs]), fun hs i hi => ?_⟩
  have hlive : requiredUnit i = some .live := by
    rcases hi with ⟨h, rfl⟩ | ⟨h, rfl⟩ | rfl <;> rfl
  exact exec_of_wrong_unit hlive (by simp [hs]) (by simp [hs])

end Sys2Proof.Machine
end

section
/-! SUPPORT. The one response to a word: the order in which its conditions decide it (60_exceptions.md R167), and that
an answer other than `OK` has no further effect but the fatal entry's (R170). -/

namespace Sys2Proof.Machine

/-! ### The fixed order -/

/-- Points (3) and (4) of R167, for a command legal in `legal` alone whose performance answers `performed`. -/
def admissionCode (legal : UnitState) (s : State) (performed : Code) : Code :=
  if s.unit = .fault then .fatal else if s.unit ≠ legal then .errState else performed

theorem admissionCode_fault {legal : UnitState} {s : State} {c : Code} (h : s.unit = .fault) :
    admissionCode legal s c = .fatal := if_pos h

theorem admissionCode_wrong {legal : UnitState} {s : State} {c : Code} (hf : s.unit ≠ .fault) (h : s.unit ≠ legal) :
    admissionCode legal s c = .errState := (if_neg hf).trans (if_pos h)

theorem admissionCode_legal {legal : UnitState} {s : State} {c : Code} (hf : s.unit ≠ .fault) (h : s.unit = legal) :
    admissionCode legal s c = c := (if_neg hf).trans (if_neg (not_not.2 h))

/-- Points (5) to (7) of R167. -/
def newCode (s : State) (base : Word64) (bytes : Nat) : Code :=
  if ¬ geometryOK bytes then .errGeometry else if ¬ allocOK s.config base bytes then .fatal else .ok

/-- The code of a legal word's command, from point (2) of R167 on. -/
def outcomeCode (s : State) : Instr → Code
  | .new bitsPerKey expectedKeys base => admissionCode .empty s (newCode s base (geometryBytes bitsPerKey expectedKeys))
  | .insert _ => admissionCode .live s .ok
  | .contains _ => admissionCode .live s .ok
  | .release => admissionCode .live s .ok
  | .rdcsr _ => .ok

theorem outcomeCode_of_fault {i : Instr} {s : State} (hi : ∀ n, i ≠ .rdcsr n) (hs : s.unit = .fault) :
    outcomeCode s i = .fatal := by
  cases i with
  | rdcsr n => exact absurd rfl (hi n)
  | new | insert | contains | release => exact admissionCode_fault hs

theorem outcomeCode_new_of_empty {s : State} (hs : s.unit = .empty) (bitsPerKey expectedKeys : BitVec 32)
    (base : Word64) : outcomeCode s (.new bitsPerKey expectedKeys base) =
      newCode s base (geometryBytes bitsPerKey expectedKeys) := admissionCode_legal (by simp [hs]) hs

theorem admissionCode_live_of_live {s : State} {c : Code} (hs : s.unit = .live) : admissionCode .live s c = c :=
  admissionCode_legal (by simp [hs]) hs

theorem admissionCode_live_of_empty {s : State} {c : Code} (hs : s.unit = .empty) :
    admissionCode .live s c = .errState := admissionCode_wrong (by simp [hs]) (by simp [hs])

/-- A well-formed command appends one response, of the code that R167 gives it. -/
theorem Does.response_code {i : Instr} {s t : State} (hi : wellFormed i = true) (h : Does i s t) :
    ∃ data, t.responses = s.responses ++ [{ code := outcomeCode s i, data := data }] := by
  cases h with
  | inFault hne hs => exact ⟨_, by rw [outcomeCode_of_fault hne hs, respond_responses]⟩
  | newInLive hs => exact ⟨_, by rw [outcomeCode, admissionCode_wrong (by simp [hs]) (by simp [hs]), respond_responses]⟩
  | insertInEmpty hs | containsInEmpty hs | releaseInEmpty hs =>
    exact ⟨_, by rw [outcomeCode, admissionCode_live_of_empty hs, respond_responses]⟩
  | newGeometry hs hg => exact ⟨_, by rw [outcomeCode_new_of_empty hs, newCode, if_pos hg, respond_responses]⟩
  | newFatal hs hg ha =>
    exact ⟨_, by rw [outcomeCode_new_of_empty hs, newCode, if_neg (not_not.2 hg), if_pos ha, raiseFatal_responses]⟩
  | newDone hs hg ha =>
    exact ⟨_, by
      rw [outcomeCode_new_of_empty hs, newCode, if_neg (not_not.2 hg), if_neg (not_not.2 ha), respond_responses,
        openFilter_responses, accessMemory_responses]⟩
  | insertDone hs | containsDone hs =>
    exact ⟨_, by rw [outcomeCode, admissionCode_live_of_live hs, reportStatus_responses, accessMemory_responses]⟩
  | releaseDone hs =>
    exact ⟨_, by rw [outcomeCode, admissionCode_live_of_live hs, respond_responses, closeFilter_responses]⟩
  | rdcsrDone hr => exact ⟨_, rfl⟩
  | rdcsrIllegal hr =>
    obtain ⟨r, hsome⟩ := csrOfNumber_isSome (of_decide_eq_true hi)
    simp [hsome] at hr

/-- Settles O8: an illegal word is answered `ERR_ILLEGAL`; a legal one's command is well formed, and answers
`outcomeCode`. -/
theorem outcomesHaveAFixedPriority : Obligations.OutcomesHaveAFixedPriority := by
  intro s t w rest hs h
  rcases step_present_does hs h with ⟨e, hw, rfl⟩ | ⟨i, hw, hd⟩
  · exact ⟨_, respond_responses _ _ _, by simp only [hw]⟩
  · obtain ⟨data, hr⟩ := hd.response_code (wellFormed_of_decodesTo (decode_eq_ok.1 hw))
    refine ⟨_, hr, ?_⟩
    simp only [hw]
    cases i <;> rfl

/-! ### Refusals -/

/-- A command responds and does nothing more, or enters `FAULT` from `EMPTY`, or answers `OK`. -/
theorem Does.refuses_or_ok {i : Instr} {s t : State} (h : Does i s t) :
    (∃ code data, t = respond s code data) ∨ (s.unit = .empty ∧ ∃ data, t = raiseFatal s data) ∨
      ∃ data, t.responses = s.responses ++ [{ code := .ok, data := data }] := by
  cases h with
  | newFatal hs => exact .inr (.inl ⟨hs, _, rfl⟩)
  | newDone | insertDone | containsDone | releaseDone => exact .inr (.inr ⟨_, rfl⟩)
  | inFault | newInLive | insertInEmpty | containsInEmpty | releaseInEmpty | newGeometry | rdcsrDone
    | rdcsrIllegal => exact .inl ⟨_, _, rfl⟩

/-- Settles O34: the response is the one the step appended, so a code other than `OK` leaves the two refusals of
`Does.refuses_or_ok`, whose states are those of the statement. -/
theorem refusedCommandsHaveNoEffect : Obligations.RefusedCommandsHaveNoEffect := by
  intro s t w rest r hs h hr hcode
  have hlast : ∀ {r' : Response}, t.responses = s.responses ++ [r'] → r = r' := fun hr' =>
    List.singleton_inj.1 (List.append_cancel_left (hr.symm.trans hr'))
  rcases step_present_does hs h with ⟨e, -, ht⟩ | ⟨i, -, hd⟩
  · obtain rfl := hlast (congrArg State.responses ht)
    exact .inl ht
  rcases hd.refuses_or_ok with ⟨code, data, ht⟩ | ⟨hempty, data, ht⟩ | ⟨data, hok⟩
  · obtain rfl := hlast (congrArg State.responses ht)
    exact .inl ht
  · obtain rfl := hlast (congrArg State.responses ht)
    exact .inr ⟨hempty, rfl, ht⟩
  · exact absurd (congrArg Response.code (hlast hok)) hcode

end Sys2Proof.Machine
end

section
/-! SUPPORT. `FAULT` (60_exceptions.md R166): what a step in it does, and what `STATUS` reads. -/

namespace Sys2Proof.Machine

/-- No register is a view of what the host does next. -/
theorem readCsr_hostActions (s : State) (rest : List HostAction) (r : Csr) :
    readCsr { s with hostActions := rest } r = readCsr s r := by
  cases r with
  | base | byteLength | bucketCount | align | status => rfl

/-- With `HIT` 0, `STATUS` in `FAULT` is `BACKEND_ID` in bits 9:8 over the bit `FAULT` (R29). -/
theorem statusWord_of_fault {s : State} (hs : s.unit = .fault) (hhit : s.hit = false) :
    statusWord s = (0 : BitVec 54) ++ backendId s.config.backend ++ (2 : BitVec 8) := by
  simp only [statusWord, hs, hhit]
  cases s.config.backend <;> rfl

/-- A step in `FAULT` stays there or is a reset, which ends in `EMPTY`. -/
theorem step_unit_of_fault {s t : State} (hs : s.unit = .fault) (h : step s = .next t) :
    t.unit = .fault ∨ t.unit = .empty ∧ ∃ rest, s.hostActions = .assertReset :: rest := by
  rcases step_does h with ⟨-, rfl⟩ | ⟨w, rest, e, -, -, rfl⟩ | ⟨w, rest, i, -, -, hd⟩ | ⟨rest, hact, rfl⟩ |
    ⟨addr, v, rest, -, -, -, rfl⟩ | ⟨addr, rest, -, -, -, rfl⟩
  · exact .inl hs
  · exact .inl hs
  · exact .inl ((hd.unit_eq.trans (unitAfterCommand_of_fault hs i)).trans hs)
  · exact .inr ⟨rfl, rest, hact⟩
  · exact .inl hs
  · exact .inl hs

/-- Settles O33: a word by what it decodes to, `STATUS` by its fields, and the way out by `step_unit_of_fault`. -/
theorem faultIsLeftOnlyByReset : Obligations.FaultIsLeftOnlyByReset := by
  refine ⟨fun s w rest hs hact => ⟨fun i hw hi => ?_, fun n r hw hr => ?_, fun e hw => ?_⟩, fun s hs hhit => ?_,
    fun s t hs h hne => (step_unit_of_fault hs h).resolve_left hne⟩
  · exact (step_of_decode_ok hact hw).trans (exec_of_fault hi hs)
  · rw [step_of_decode_ok hact hw, exec_rdcsr_of_number _ hr, readCsr_hostActions]
    rfl
  · exact step_of_decode_error hact hw
  · rw [readCsr, statusWord_of_fault hs hhit]
    cases s.config.backend <;> rfl

end Sys2Proof.Machine
end

section
/-! SUPPORT. A load after a store (20_memory.md R53, R54), the block zero-fill against the loop of line writes
(43_filter_commands.md R145), and the lanes of a bucket in memory. -/

namespace Sys2Proof.Machine

/-! ### A store, then a load of the same bytes -/

theorem getLsbD_byteOf {w : Nat} (v : BitVec w) (j i : Nat) :
    (byteOf v j).getLsbD i = (decide (i < 8) && v.getLsbD (8 * j + i)) := BitVec.getLsbD_extractLsb' ..

theorem Memory.peek_store_inside {w : Nat} {m : Memory} (h : m.wf) (addr : Nat) (v : BitVec w) {n j : Nat}
    (hj : j < n) : (m.store addr v n).peek (addr + j) = byteOf v j := by
  rw [Memory.peek_store h, if_pos (by omega), Nat.add_sub_cancel_left]

theorem Memory.peek_store_outside {w : Nat} {m : Memory} (h : m.wf) (addr : Nat) (v : BitVec w) {n x : Nat}
    (hx : x < addr ∨ addr + n ≤ x) : (m.store addr v n).peek x = m.peek x := by
  rw [Memory.peek_store h, if_neg (by omega)]

theorem Memory.load_store {w n : Nat} {m : Memory} (h : m.wf) (addr : Nat) (v : BitVec w) (hn : 8 * n = w) :
    (m.store addr v n).load w addr n = v := by
  apply BitVec.eq_of_getLsbD_eq
  intro p hp
  rw [Memory.getLsbD_load, Memory.peek_store_inside h addr v (by omega), getLsbD_byteOf,
    show 8 * (p / 8) + p % 8 = p by omega]
  simp [hp, hn, Nat.mod_lt]

/-- The 32 bytes of a bucket. -/
theorem Memory.load_store_bucket {m : Memory} (h : m.wf) (addr : Nat) (v : Bucket) :
    (m.store addr v 32).load 256 addr 32 = v := Memory.load_store h addr v rfl

/-- Storing what is there changes nothing. -/
theorem Memory.store_load {w n : Nat} {m : Memory} (h : m.wf) (addr : Nat) (hn : 8 * n ≤ w) :
    m.store addr (m.load w addr n) n = m := by
  refine Memory.ext_of_wf (Memory.store_wf h _ _ _) h fun x => ?_
  rw [Memory.peek_store h]
  split
  · next hx => rw [Memory.byteOf_load m addr (by omega) hn, Nat.add_sub_cancel' hx.1]
  · rfl

/-- Settles O17: where a byte is not backed neither access has a result; else the write is a store, whose bytes and
frame are `Memory.peek_store`'s, and the read is the load after it. -/
theorem writeThenReadGivesTheValue : Obligations.WriteThenReadGivesTheValue := by
  intro w c m a v hw hm
  constructor
  · intro hunbacked
    exact ⟨memWrite_of_unbacked m v (by omega), memRead_of_unbacked m (by omega)⟩
  · intro hbacked
    refine ⟨_, memWrite_of_backed m v hbacked, ?_, fun j hj => Memory.peek_store_inside hm a v hj,
      fun x hx => Memory.peek_store_outside hm a v hx⟩
    rw [memRead_of_backed _ hbacked, Memory.load_store hm a v (by omega)]

/-! ### The zero-fill, line by line -/

theorem Memory.zeroFillByLines_wf {m : Memory} (h : m.wf) (addr lines : Nat) : (m.zeroFillByLines addr lines).wf := by
  induction lines with
  | zero => exact h
  | succ lines ih => exact Memory.store_wf ih _ _ _

theorem byteOf_zero (w j : Nat) : byteOf (0 : BitVec w) j = 0 := BitVec.extractLsb'_zero

theorem Memory.peek_zeroFillByLines {m : Memory} (h : m.wf) (addr lines x : Nat) :
    (m.zeroFillByLines addr lines).peek x = if addr ≤ x ∧ x < addr + 64 * lines then 0 else m.peek x := by
  induction lines with
  | zero => rw [if_neg (by omega)]; rfl
  | succ lines ih =>
    rw [Memory.zeroFillByLines, Memory.peek_store (Memory.zeroFillByLines_wf h addr lines), ih, byteOf_zero]
    by_cases hline : addr + 64 * lines ≤ x ∧ x < addr + 64 * lines + 64
    · rw [if_pos hline, if_pos (by omega)]
    · rw [if_neg hline]
      by_cases hbelow : addr ≤ x ∧ x < addr + 64 * lines
      · rw [if_pos hbelow, if_pos (by omega)]
      · rw [if_neg hbelow, if_neg (by omega)]

/-- Settles O24: both fills are in canonical form and read alike at every address. -/
theorem zeroFillIsTheLoopOfLineWrites : Obligations.ZeroFillIsTheLoopOfLineWrites := by
  intro m addr lines hm
  refine Memory.ext_of_wf (Memory.zeroFillByLines_wf hm addr lines) (Memory.zeroFill_wf hm addr _) fun x => ?_
  rw [Memory.peek_zeroFillByLines hm, Memory.peek_zeroFill]

/-! ### The lanes of a bucket in memory -/

/-- Lane `i` of a loaded bucket is the 32-bit word at offset `4 * i` (R54, R135). -/
theorem Memory.load_lane (m : Memory) (addr : Nat) {i : Nat} (hi : i < 8) :
    m.load 32 (addr + 4 * i) 4 = lane (m.load 256 addr 32) i := by
  apply BitVec.eq_of_getLsbD_eq
  intro j hj
  have hbyte : addr + (32 * i + j) / 8 = addr + 4 * i + j / 8 := by omega
  have hbit : (32 * i + j) % 8 = j % 8 := by omega
  have hin : 32 * i + j < 256 := by omega
  rw [lane, BitVec.getLsbD_extractLsb', Memory.getLsbD_load, Memory.getLsbD_load, hbyte, hbit]
  simp [hj, hin]

end Sys2Proof.Machine
end

section
/-! SUPPORT. The bits of the mask (41_index_mask.md R114 to R116). -/

namespace Sys2Proof.Machine

/-! ### One bit in each lane -/

theorem getLsbD_maskLane (c : Config) (h : Word64) (i j : Nat) :
    (maskLane c h i).getLsbD j = decide (j = (maskExp c h i).toNat) := by
  have hexp : (maskExp c h i).toNat < 32 := (maskExp c h i).isLt
  rw [maskLane, ← BitVec.twoPow_eq, BitVec.getLsbD_twoPow, decide_eq_true hexp, Bool.true_and]
  simp only [eq_comm]

theorem getLsbD_mask (c : Config) (h : Word64) {i j : Nat} (hi : i < 8) (hj : j < 32) :
    (mask c h).getLsbD (32 * i + j) = decide (j = (maskExp c h i).toNat) := by
  rw [← getLsbD_maskLane c h i j, ← lane_mask c h hi, lane, BitVec.getLsbD_extractLsb']
  simp [hj]

theorem maskLane_ne_zero (c : Config) (h : Word64) (i : Nat) : maskLane c h i ≠ 0 := by
  intro hzero
  have hbit := getLsbD_maskLane c h i (maskExp c h i).toNat
  simp [hzero] at hbit

theorem mask_ne_zero (c : Config) (h : Word64) : mask c h ≠ 0 := by
  intro hzero
  apply maskLane_ne_zero c h 0
  rw [← lane_mask c h (by decide), hzero]
  exact BitVec.extractLsb'_zero

/-- A predicate true of exactly one position in each block of 32 is true of as many positions as there are blocks. -/
theorem countP_range_of_one_per_block {p : Nat → Bool} {e : Nat → Nat} (n : Nat) (he : ∀ i, i < n → e i < 32)
    (hp : ∀ i, i < n → ∀ j, j < 32 → p (32 * i + j) = decide (j = e i)) : (List.range (32 * n)).countP p = n := by
  induction n with
  | zero => rfl
  | succ n ih =>
    have hbelow := ih (fun i hi => he i (by omega)) (fun i hi => hp i (by omega))
    have hblock : (List.range 32).countP (p ∘ (32 * n + ·)) = 1 := by
      have hone : (List.range 32).count (e n) = 1 :=
        List.count_eq_one_of_mem List.nodup_range (List.mem_range.2 (he n (by omega)))
      rw [← hone]
      refine List.countP_congr fun j hj => ?_
      simp [hp n (by omega) j (List.mem_range.1 hj)]
    rw [Nat.mul_succ, List.range_add, List.countP_append, hbelow, List.countP_map, hblock]

/-! ### What the mask depends on, and two values of it -/

theorem maskExp_congr (c : Config) {h h' : Word64} (hlo : hashLo h' = hashLo h) (i : Nat) :
    maskExp c h' i = maskExp c h i := by rw [maskExp, hlo, maskExp]

theorem mask_congr (c : Config) {h h' : Word64} (hlo : hashLo h' = hashLo h) : mask c h' = mask c h := by
  simp only [mask, maskLane, maskExp_congr c hlo]

/-- `lane_i` of the mask, for an exponent known by its value. -/
theorem lane_mask_of_maskExp {c : Config} {h : Word64} {i : Nat} {e : BitVec 5} (hi : i < 8)
    (he : maskExp c h i = e) : maskExp c h i = e ∧ lane (mask c h) i = 1#32 <<< e.toNat :=
  ⟨he, by rw [lane_mask c h hi, maskLane, he]⟩

theorem maskExp_of_hashLo_eq_zero {c : Config} {h : Word64} (hlo : hashLo h = 0) (i : Nat) : maskExp c h i = 0 := by
  apply BitVec.eq_of_toNat_eq
  rw [maskExp_toNat, hlo, mul32lo]
  simp

/-- An odd salt times `2 ^ 31` is `2 ^ 31` in 32 bits. -/
theorem maskExp_of_hashLo_eq_top {c : Config} {h : Word64} (hlo : hashLo h = 0x80000000) {i : Nat}
    (hodd : (c.saltLane i).toNat % 2 = 1) : maskExp c h i = 16 := by
  have hprod : (c.saltLane i).toNat * 2147483648 % 4294967296 = 2147483648 := by omega
  apply BitVec.eq_of_toNat_eq
  rw [maskExp_toNat, hlo, mul32lo, BitVec.toNat_ushiftRight, BitVec.toNat_mul]
  simp [hprod]

/-- Settles O15: the bits by `getLsbD_mask`, from which the count follows block by block; the rest by the exponents. -/
theorem maskHasOneBitInEveryLane : Obligations.MaskHasOneBitInEveryLane := fun c h =>
  ⟨fun _ hi _ hj => getLsbD_mask c h hi hj,
    fun i hi => lane_mask c h hi ▸ maskLane_ne_zero c h i,
    countP_range_of_one_per_block 8 (fun i _ => (maskExp c h i).isLt) fun _ hi _ hj => getLsbD_mask c h hi hj,
    fun _ => mask_congr c,
    fun _ => bucketIndex_congr,
    fun hlo i hi => lane_mask_of_maskExp hi (maskExp_of_hashLo_eq_zero hlo i),
    fun hlo _ hi hodd => lane_mask_of_maskExp hi (maskExp_of_hashLo_eq_top hlo hodd)⟩

end Sys2Proof.Machine
end

section
/-! SUPPORT. The selected kernel under its precondition, on either backend (42_kernel_backends.md R120 to R136), and
`INSERT` and `CONTAINS` of a live filter by it (43_filter_commands.md R146, R148). -/

namespace Sys2Proof.Machine

/-! ### The selected kernel, whatever the backend -/

/-- Every mask bit of the hash is set in the bucket at `addr` (R121, R122). -/
def bucketHolds (c : Config) (m : Memory) (addr : Nat) (h : Word64) : Bool :=
  decide (m.load 256 addr 32 &&& mask c h = mask c h)

theorem bucketHolds_iff {c : Config} {m : Memory} {addr : Nat} {h : Word64} :
    bucketHolds c m addr h = true ↔ m.load 256 addr 32 &&& mask c h = mask c h := decide_eq_true_iff

theorem beq_mask_eq_bucketHolds (c : Config) (m : Memory) (addr : Nat) (h : Word64) :
    (m.load 256 addr 32 &&& mask c h == mask c h) = bucketHolds c m addr h := by
  rw [Bool.eq_iff_iff, beq_iff_eq, bucketHolds_iff]

/-- Memory with the mask of the hash ORed into the bucket at `addr` (R121). Irreducible, so that no comparison of
states evaluates the 32 bytes of the store. -/
@[irreducible] def bucketStored (c : Config) (m : Memory) (addr : Nat) (h : Word64) : Memory :=
  m.store addr (m.load 256 addr 32 ||| mask c h) 32

section
variable {m : Memory} (c : Config)

theorem bucketStored_wf (hm : m.wf) (addr : Nat) (h : Word64) : (bucketStored c m addr h).wf := by
  unfold bucketStored
  exact Memory.store_wf hm _ _ _

theorem load_bucketStored (hm : m.wf) (addr : Nat) (h : Word64) :
    (bucketStored c m addr h).load 256 addr 32 = m.load 256 addr 32 ||| mask c h := by
  unfold bucketStored
  exact Memory.load_store_bucket hm addr _

theorem peek_bucketStored_outside (hm : m.wf) (addr : Nat) (h : Word64) {x : Nat} (hx : x < addr ∨ addr + 32 ≤ x) :
    (bucketStored c m addr h).peek x = m.peek x := by
  unfold bucketStored
  exact Memory.peek_store_outside hm addr _ hx

/-- A byte of the bucket is the byte as it was with the mask's bits set. -/
theorem peek_bucketStored_inside (hm : m.wf) (addr : Nat) (h : Word64) {j : Nat} (hj : j < 32) :
    (bucketStored c m addr h).peek (addr + j) = m.peek (addr + j) ||| byteOf (mask c h) j := by
  unfold bucketStored
  rw [Memory.peek_store_inside hm addr _ hj, byteOf, BitVec.extractLsb'_or]
  exact congrArg (· ||| byteOf (mask c h) j) (Memory.byteOf_load m addr hj (by decide))

theorem mem_bucketStored {addr : Nat} {h : Word64} {x : Host.Cell} (hx : x ∈ bucketStored c m addr h) :
    x ∈ m ∨ (addr ≤ x.1 ∧ x.1 < addr + 32) := by
  unfold bucketStored at hx
  exact Memory.mem_store hx

end

section
variable {c : Config} {base : Word64} {n : BitVec 32}

/-- The contract's boolean and memory are `kernelContains_refines`'; the reads are the backend's (R59). -/
theorem kernelContains_of_pre (m : Memory) (h : Word64) (hp : kernelPre c base n) :
    kernelContains c m base n h = some
      { status := bucketHolds c m (bucketAddr base (bucketIndex h n)) h
        mem := m
        events := containsAccesses c.backend (bucketAddr base (bucketIndex h n)) } := by
  have href := kernelContains_refines m h hp
  rw [kernelContainsRef_eq m h hp, beq_mask_eq_bucketHolds, Option.map_some] at href
  rw [kernelContains_eq hp] at href ⊢
  cases hb : c.backend with
  | v256 | v128p =>
    simp only [hb, Option.map_some, Option.some.injEq, Prod.mk.injEq] at href
    simp only [href.1, containsAccesses]

/-- The contract's boolean and memory are `kernelInsert_refines`'; the accesses are the backend's (R59). -/
theorem kernelInsert_of_pre (m : Memory) (h : Word64) (hp : kernelPre c base n) :
    kernelInsert c m base n h = some
      { status := bucketHolds c m (bucketAddr base (bucketIndex h n)) h
        mem := bucketStored c m (bucketAddr base (bucketIndex h n)) h
        events := insertAccesses c.backend (bucketAddr base (bucketIndex h n)) } := by
  have href := kernelInsert_refines m h hp
  rw [kernelInsertRef_eq m h hp, beq_mask_eq_bucketHolds] at href
  rw [kernelInsert_eq hp] at href ⊢
  cases hb : c.backend with
  | v256 | v128p =>
    simp only [hb, Option.map_some, Option.some.injEq, Prod.mk.injEq] at href
    obtain ⟨hstatus, hmem⟩ := href
    simp only [hstatus, hmem, insertAccesses, bucketStored]

theorem kernelContains_eq_none_iff {m : Memory} {h : Word64} :
    kernelContains c m base n h = none ↔ ¬ kernelPre c base n :=
  ⟨fun hnone hp => by simp [kernelContains_of_pre m h hp] at hnone, kernelContains_none⟩

theorem kernelInsert_eq_none_iff {m : Memory} {h : Word64} :
    kernelInsert c m base n h = none ↔ ¬ kernelPre c base n :=
  ⟨fun hnone hp => by simp [kernelInsert_of_pre m h hp] at hnone, kernelInsert_none⟩

/-! ### The kernels read lane by lane (R135) -/

/-- The subset test of a bucket in memory asks one bit of each of its eight words. -/
theorem bucketHolds_iff_lanes (m : Memory) (addr : Nat) (h : Word64) :
    bucketHolds c m addr h = true ↔
      ∀ i, i < 8 → (m.load 32 (addr + 4 * i) 4).getLsbD (maskExp c h i).toNat = true := by
  rw [bucketHolds_iff, and_mask_eq_iff]
  exact forall₂_congr fun i hi => by rw [Memory.load_lane m addr hi]

/-- A word of a stored `bucket OR mask` is the word as it was with one bit set. -/
theorem load_lane_bucketStored {m : Memory} (hm : m.wf) (addr : Nat) (h : Word64) {i : Nat} (hi : i < 8) :
    (bucketStored c m addr h).load 32 (addr + 4 * i) 4 =
      m.load 32 (addr + 4 * i) 4 ||| 1#32 <<< (maskExp c h i).toNat := by
  rw [Memory.load_lane _ addr hi, load_bucketStored c hm, lane_or, lane_mask c h hi, maskLane,
    Memory.load_lane m addr hi]

end

/-- Settles O21: each kernel by its value under the precondition, the bucket then read word by word. -/
theorem kernelsActLaneByLane : Obligations.KernelsActLaneByLane := fun _ m _ _ h hm hp =>
  ⟨⟨_, kernelContains_of_pre m h hp, rfl, bucketHolds_iff_lanes m _ h⟩,
    ⟨_, kernelInsert_of_pre m h hp, bucketHolds_iff_lanes m _ h,
      fun _ => load_lane_bucketStored hm _ h⟩⟩

/-! ### `INSERT` and `CONTAINS` of a live filter -/

/-- The address of the bucket that a hash selects in the filter (R52, R111). -/
def State.bucketOf (s : State) (h : Word64) : Nat := bucketAddr s.base (bucketIndex h s.bucketCount)

/-- Every mask bit of the hash is set in its bucket: what a `CONTAINS` reports (R148). -/
def State.holds (s : State) (h : Word64) : Bool :=
  bucketHolds s.config s.mem (s.bucketOf h) h

/-- Memory with the mask of the hash ORed into its bucket: what an `INSERT` leaves (R146). -/
def State.memInserted (s : State) (h : Word64) : Memory :=
  bucketStored s.config s.mem (s.bucketOf h) h

/-- The state after an `INSERT` of a live filter. -/
def State.inserted (s : State) (h : Word64) : State :=
  reportStatus (accessMemory s (s.memInserted h) (insertAccesses s.config.backend (s.bucketOf h))) (s.holds h)

/-- The state after a `CONTAINS` of a live filter. -/
def State.queried (s : State) (h : Word64) : State :=
  reportStatus (accessMemory s s.mem (containsAccesses s.config.backend (s.bucketOf h))) (s.holds h)

section
variable {s : State}

theorem exec_insert_of_live (h : Word64) (hs : s.unit = .live) (hp : kernelPre s.config s.base s.bucketCount) :
    exec (.insert h) s = .next (s.inserted h) := by
  show execInsert h s = _
  unfold execInsert
  rw [performIn_legal (by simp [hs]) hs, kernelInsert_of_pre s.mem h hp]
  rfl

theorem exec_contains_of_live (h : Word64) (hs : s.unit = .live) (hp : kernelPre s.config s.base s.bucketCount) :
    exec (.contains h) s = .next (s.queried h) := by
  show execContains h s = _
  unfold execContains
  rw [performIn_legal (by simp [hs]) hs, kernelContains_of_pre s.mem h hp]
  rfl

theorem exec_insert_of_not_pre (h : Word64) (hs : s.unit = .live)
    (hp : ¬ kernelPre s.config s.base s.bucketCount) : exec (.insert h) s = .refused .kernelPrecondition := by
  show execInsert h s = _
  unfold execInsert
  rw [performIn_legal (by simp [hs]) hs, kernelInsert_none hp]

theorem exec_contains_of_not_pre (h : Word64) (hs : s.unit = .live)
    (hp : ¬ kernelPre s.config s.base s.bucketCount) : exec (.contains h) s = .refused .kernelPrecondition := by
  show execContains h s = _
  unfold execContains
  rw [performIn_legal (by simp [hs]) hs, kernelContains_none hp]

end

/-- Settles O22: both kernels have a value under the precondition and none without it, where the commands stop. -/
theorem kernelsNeedTheirPrecondition : Obligations.KernelsNeedTheirPrecondition :=
  ⟨fun _ _ _ _ _ => ⟨kernelInsert_eq_none_iff, kernelContains_eq_none_iff⟩,
    fun _ h hs hp => ⟨exec_insert_of_not_pre h hs hp, exec_contains_of_not_pre h hs hp⟩⟩

/-- Settles O27: the answer is `State.inserted`; its memory is one store of 32 bytes at the bucket. -/
theorem insertStoresTheMaskAndReports : Obligations.InsertStoresTheMaskAndReports := fun _ h hs hm hp =>
  ⟨_, exec_insert_of_live h hs hp, rfl, load_bucketStored _ hm _ h, fun _ => peek_bucketStored_outside _ hm _ h,
    bucketStored_wf _ hm _ h⟩

/-- Settles O28: the answer is `State.queried`, whose fields are those of the statement. -/
theorem containsReportsAndStoresNothing : Obligations.ContainsReportsAndStoresNothing := fun _ h hs hp =>
  exec_contains_of_live h hs hp

end Sys2Proof.Machine
end

section
/-! SUPPORT. The rows of the opcode table by their fields (30_encoding.md R92), and the response word (R84, R85). -/

namespace Sys2Proof

/-! ### The opcode table -/

theorem commandWord_inj {op op' : BitVec 8} {a a' b b' : Word64} :
    commandWord op a b = commandWord op' a' b' ↔ op = op' ∧ a = a' ∧ b = b' := by
  constructor
  · intro h
    have hop := congrArg opField h
    have ha := congrArg aField h
    have hb := congrArg bField h
    simp only [opField_commandWord, aField_commandWord, bField_commandWord] at hop ha hb
    exact ⟨hop, ha, hb⟩
  · rintro ⟨rfl, rfl, rfl⟩
    rfl

/-- A row that fixes the opcode and asks the bits of `A` under `aMask` and those of `B` under `bMask` to be 0. -/
def fieldRow (name : String) (op : BitVec 8) (aMask bMask : Word64) : TableRow :=
  { mnemonic := name, matchBits := commandWord op 0 0, maskBits := commandWord 0xFF aMask bMask }

theorem fieldRow_selects {name : String} {op : BitVec 8} {aMask bMask : Word64} {w : CommandWord} :
    (fieldRow name op aMask bMask).selects w ↔ opField w = op ∧ aField w &&& aMask = 0 ∧ bField w &&& bMask = 0 := by
  have hop : opField w &&& 0xFF = opField w := BitVec.and_allOnes
  show w &&& commandWord 0xFF aMask bMask = commandWord op 0 0 ↔ _
  conv_lhs => rw [← commandWord_fields w, commandWord_and, commandWord_inj, hop]

/-- The table, field by field: `INSERT` and `CONTAINS` reserve `B`, `RELEASE` both fields, `RDCSR` all but the low three
bits of `A`. -/
theorem opcodeTable_eq_fieldRows : opcodeTable =
    [fieldRow "NEW" 1 0 0, fieldRow "INSERT" 2 0 (BitVec.allOnes 64), fieldRow "CONTAINS" 3 0 (BitVec.allOnes 64),
      fieldRow "RELEASE" 4 (BitVec.allOnes 64) (BitVec.allOnes 64),
      fieldRow "RDCSR" 5 0xFFFFFFFFFFFFFFF8 (BitVec.allOnes 64)] := by decide

theorem mem_opcodeTable {r : TableRow} : r ∈ opcodeTable ↔
    r = fieldRow "NEW" 1 0 0 ∨ r = fieldRow "INSERT" 2 0 (BitVec.allOnes 64) ∨
      r = fieldRow "CONTAINS" 3 0 (BitVec.allOnes 64) ∨
      r = fieldRow "RELEASE" 4 (BitVec.allOnes 64) (BitVec.allOnes 64) ∨
      r = fieldRow "RDCSR" 5 0xFFFFFFFFFFFFFFF8 (BitVec.allOnes 64) := by
  simp only [opcodeTable_eq_fieldRows, List.mem_cons, List.not_mem_nil, or_false]

/-- A legal word selects the row of its command: it is the encoding of a well-formed one. -/
theorem exists_row_of_decode {w : CommandWord} {i : Instr} (h : decode w = .ok i) :
    ∃ r ∈ opcodeTable, r.selects w ∧ r.mnemonic = mnemonic i := by
  have hwf : wellFormed i = true := wellFormed_of_decodesTo (decode_eq_ok.1 h)
  rw [← encode_of_decode h]
  cases i with
  | new bitsPerKey expectedKeys base => exact Laws.EncodingSelectsRow.new bitsPerKey expectedKeys base hwf
  | insert hash => exact Laws.EncodingSelectsRow.insert hash hwf
  | contains hash => exact Laws.EncodingSelectsRow.contains hash hwf
  | release => exact Laws.EncodingSelectsRow.release hwf
  | rdcsr csr => exact Laws.EncodingSelectsRow.rdcsr csr hwf

/-- Of the legal words only a `RDCSR` has the mnemonic of the row that does not say everything. -/
theorem aField_le_of_mnemonic {w : CommandWord} {i : Instr} (h : decodesTo w i) (hm : mnemonic i = "RDCSR") :
    (aField w).toNat ≤ 4 := by
  cases i with
  | rdcsr csr => obtain ⟨-, rfl, hcsr, -⟩ := h; exact hcsr
  | new | insert | contains | release => simp [mnemonic] at hm

/-- A selected row, with `A` in range for `RDCSR`, fixes the fields of a legal word. -/
theorem exists_decodesTo_of_selects {w : CommandWord} {r : TableRow} (hr : r ∈ opcodeTable) (hsel : r.selects w)
    (hA : r.mnemonic = "RDCSR" → (aField w).toNat ≤ 4) : ∃ i, decodesTo w i := by
  rw [exists_decodesTo_iff]
  rcases mem_opcodeTable.1 hr with rfl | rfl | rfl | rfl | rfl
  · obtain ⟨hop, -, -⟩ := fieldRow_selects.1 hsel
    exact .inl hop
  · obtain ⟨hop, -, hb⟩ := fieldRow_selects.1 hsel
    exact .inr (.inl ⟨.inl hop, BitVec.and_allOnes.symm.trans hb⟩)
  · obtain ⟨hop, -, hb⟩ := fieldRow_selects.1 hsel
    exact .inr (.inl ⟨.inr hop, BitVec.and_allOnes.symm.trans hb⟩)
  · obtain ⟨hop, ha, hb⟩ := fieldRow_selects.1 hsel
    exact .inr (.inr (.inl ⟨hop, BitVec.and_allOnes.symm.trans ha, BitVec.and_allOnes.symm.trans hb⟩))
  · obtain ⟨hop, -, hb⟩ := fieldRow_selects.1 hsel
    exact .inr (.inr (.inr ⟨hop, hA rfl, BitVec.and_allOnes.symm.trans hb⟩))

theorem opField_of_selects {w : CommandWord} {r : TableRow} (hr : r ∈ opcodeTable) (hsel : r.selects w) :
    opField w = opField r.matchBits := by
  rcases mem_opcodeTable.1 hr with rfl | rfl | rfl | rfl | rfl
  all_goals
    obtain ⟨hop, -, -⟩ := fieldRow_selects.1 hsel
    exact hop.trans (opField_commandWord _ _ _).symm

theorem row_eq_of_opField : ∀ r ∈ opcodeTable, ∀ r' ∈ opcodeTable,
    opField r.matchBits = opField r'.matchBits → r = r' := by decide

/-- Settles O3: a legal word selects its command's row, a selected row fixes the fields of a legal word, and two
selected rows have the word's opcode, which no two rows share. -/
theorem opcodeTableSelectsTheLegalWords : Obligations.OpcodeTableSelectsTheLegalWords := by
  refine ⟨fun w => ⟨?_, ?_⟩, fun w i h => exists_row_of_decode h, fun w r hr r' hr' hsel hsel' => ?_⟩
  · rintro ⟨i, h⟩
    obtain ⟨r, hr, hsel, hm⟩ := exists_row_of_decode h
    exact ⟨r, hr, hsel, fun hname => aField_le_of_mnemonic (decode_eq_ok.1 h) (hm.symm.trans hname)⟩
  · rintro ⟨r, hr, hsel, hA⟩
    obtain ⟨i, h⟩ := exists_decodesTo_of_selects hr hsel hA
    exact ⟨i, decode_eq_ok.2 h⟩
  · exact row_eq_of_opField r hr r' hr' ((opField_of_selects hr hsel).symm.trans (opField_of_selects hr' hsel'))

end Sys2Proof

namespace Sys2Proof.Machine

/-! ### The response word -/

/-- The code that the bits 71:64 of a response word stand for (R85). -/
def codeOfBits (b : BitVec 8) : Code :=
  if b = 0x00 then .ok else if b = 0x01 then .errIllegal else if b = 0x02 then .errState
  else if b = 0x03 then .errGeometry else .fatal

theorem codeOfBits_bits (c : Code) : codeOfBits c.bits = c := by
  cases c with
  | ok | errIllegal | errState | errGeometry | fatal => rfl

theorem Code.bits_injective : Function.Injective Code.bits := Function.LeftInverse.injective codeOfBits_bits

theorem Response.word_injective {r r' : Response} (h : r.word = r'.word) : r = r' := by
  have hcode : r.code.bits = r'.code.bits := by
    have hhigh := congrArg (BitVec.extractLsb' 64 8) h
    rwa [Response.word, Response.word, BitVec.extractLsb'_append_eq_left, BitVec.extractLsb'_append_eq_left] at hhigh
  have hdata : r.data = r'.data := by
    have hlow := congrArg (BitVec.extractLsb' 0 64) h
    rwa [Response.word, Response.word, BitVec.extractLsb'_append_eq_right, BitVec.extractLsb'_append_eq_right] at hlow
  obtain ⟨code, data⟩ := r
  obtain ⟨code', data'⟩ := r'
  exact congrArg₂ Response.mk (Code.bits_injective hcode) hdata

/-- Settles O5: the word as a sum, the codes as written, and both parts read back from the word. -/
theorem responseWordLayout : Obligations.ResponseWordLayout :=
  ⟨fun r => toNat_append_eq_add r.code.bits r.data, rfl, rfl, rfl, rfl, rfl, fun _ _ => Response.word_injective⟩

end Sys2Proof.Machine
end

section
/-! SUPPORT. The commands and the other agents, one by one: a fatal `NEW`, `RELEASE` and `RDCSR` (43_filter_commands.md
R144, R150, R152), the registers they leave or read (10_state.md R24 to R31), reset and the byte accesses of the other
agents (70_reset_and_hazards.md R180, R184, R185). -/

namespace Sys2Proof.Machine

/-! ### The sizing rule (R105, R106) -/

/-- Settles O13: a computed size is a number of whole lines, so 32 divides it an even number of times. -/
theorem usableGeometryIsAnEvenBucketCount : Obligations.UsableGeometryIsAnEvenBucketCount := by
  intro bitsPerKey expectedKeys
  have hlines : geometryBytes bitsPerKey expectedKeys % 64 = 0 := roundToLine_mod _
  simp only [geometryOK, bucketsIn]
  omega

/-! ### The registers -/

/-- Bit by bit: the flags, the reserved bits 7:3, `BACKEND` in 9:8 and nothing above (R29). -/
theorem getLsbD_statusWord (s : State) (p : Nat) : (statusWord s).getLsbD p =
    if p = 0 then decide (s.unit = .live) else if p = 1 then decide (s.unit = .fault) else if p = 2 then s.hit
    else if p < 8 then false else (backendId s.config.backend).getLsbD (p - 8) := by
  simp only [statusWord, BitVec.getLsbD_append, BitVec.getLsbD_ofBool, Nat.sub_sub]
  grind

theorem extractLsb'_statusWord (s : State) : (statusWord s).extractLsb' 8 2 = backendId s.config.backend := by
  apply BitVec.eq_of_getLsbD_eq
  intro i hi
  rw [BitVec.getLsbD_extractLsb', getLsbD_statusWord, if_neg (by omega), if_neg (by omega), if_neg (by omega),
    if_neg (by omega), Nat.add_sub_cancel_left]
  simp [hi]

/-- Settles O31: every clause is a reading of `getLsbD_statusWord`, and `STATE` is one of three values. -/
theorem statusRegisterFields : Obligations.StatusRegisterFields := by
  intro s
  have hlive : (statusWord s).getLsbD 0 = decide (s.unit = .live) := getLsbD_statusWord s 0
  have hfault : (statusWord s).getLsbD 1 = decide (s.unit = .fault) := getLsbD_statusWord s 1
  refine ⟨hlive, hfault, getLsbD_statusWord s 2, fun p hlo hhi => ?_, ?_, fun p hp => ?_, ?_, ?_⟩
  · rw [getLsbD_statusWord, if_neg (by omega), if_neg (by omega), if_neg (by omega), if_pos (by omega)]
  · rw [extractLsb'_statusWord]
    cases s.config.backend <;> rfl
  · rw [getLsbD_statusWord, if_neg (by omega), if_neg (by omega), if_neg (by omega), if_neg (by omega)]
    exact BitVec.getLsbD_of_ge _ _ (by omega)
  · rw [hlive, hfault]
    cases s.unit <;> decide
  · rw [hlive, hfault]
    cases s.unit <;> decide

/-- With no filter and the registers cleared every register reads as right after reset (R38). -/
theorem readCsr_of_cleared {s : State} (hs : s.unit = .empty) (hc : s.ClearedRegisters) (r : Csr) :
    readCsr s r = readCsr (State.resetOf s.config) r := by
  obtain ⟨hbase, hlength, hcount, hhit⟩ := hc
  cases r with
  | base => exact hbase
  | byteLength => exact hlength
  | bucketCount => exact congrArg (BitVec.setWidth 64) hcount
  | align => rfl
  | status => simp only [readCsr, statusWord, hs, hhit]; rfl

theorem readCsr_resetOf_status (c : Config) :
    readCsr (State.resetOf c) .status = (match c.backend with | .v256 => 0 | .v128p => 0x100) := by
  simp only [readCsr, statusWord, State.resetOf, reduceCtorEq, decide_false]
  cases c.backend <;> rfl

/-! ### The rest of the commands -/

section
variable {s : State}

/-- R144: the fatal class sets `FAULT` and responds, no more. -/
theorem exec_new_of_unallocatable {bitsPerKey expectedKeys : BitVec 32} {base : Word64} (hs : s.unit = .empty)
    (hg : geometryOK (geometryBytes bitsPerKey expectedKeys))
    (ha : ¬ allocOK s.config base (geometryBytes bitsPerKey expectedKeys)) :
    exec (.new bitsPerKey expectedKeys base) s =
      .next (raiseFatal s (BitVec.ofNat 64 (geometryBytes bitsPerKey expectedKeys))) :=
  (performIn_legal (by simp [hs]) hs).trans ((if_neg (not_not.2 hg)).trans (if_pos ha))

/-- R150: the registers are cleared and the recorded size goes out. -/
theorem exec_release_of_live (hs : s.unit = .live) :
    exec .release s = .next (respond (closeFilter s) .ok s.byteLength) := performIn_legal (by simp [hs]) hs

theorem csrOfNumber_eq_none {n : Word64} (h : 4 < n.toNat) : csrOfNumber n = none := by
  have hne : ∀ k : Word64, k.toNat ≤ 4 → n ≠ k := by rintro k hk rfl; omega
  simp [csrOfNumber, hne]

theorem exec_rdcsr_of_not_number {n : Word64} (s : State) (h : csrOfNumber n = none) :
    exec (.rdcsr n) s = .next (respond s .errIllegal 0) := by
  show execRdcsr n s = _
  unfold execRdcsr
  rw [h]

end

/-- Settles O26: either failure of the region is a failure of `AllocOK`, and the fatal class changes `STATE` alone. -/
theorem newWithoutARegionIsFatal : Obligations.NewWithoutARegionIsFatal := by
  intro s bitsPerKey expectedKeys base hs hg hregion
  have halloc : ¬ allocOK s.config base (geometryBytes bitsPerKey expectedKeys) := by
    rintro ⟨halign, hbacked⟩
    omega
  exact exec_new_of_unallocatable hs hg halloc

/-- Settles O29: `closeFilter` clears what `readCsr_of_cleared` asks for. -/
theorem releaseHandsTheBufferBack : Obligations.ReleaseHandsTheBufferBack := fun _ hs =>
  ⟨_, exec_release_of_live hs, rfl, readCsr_of_cleared rfl ⟨rfl, rfl, rfl, rfl⟩⟩

/-- Settles O30: the number names its register, or none above 4. -/
theorem rdcsrReadsEveryRegister : Obligations.RdcsrReadsEveryRegister := fun s =>
  ⟨exec_rdcsr_of_number (r := .base) s rfl, exec_rdcsr_of_number (r := .byteLength) s rfl,
    ⟨readCsr s .bucketCount, BitVec.toNat_setWidth_of_le (by decide), exec_rdcsr_of_number s rfl⟩,
    exec_rdcsr_of_number (r := .align) s rfl, exec_rdcsr_of_number (r := .status) s rfl,
    fun _ hn => exec_rdcsr_of_not_number s (csrOfNumber_eq_none hn), fun _ _ => rfl⟩

/-! ### The step on each action of the host -/

section
variable {s : State} {rest : List HostAction}

theorem step_of_idle (hs : s.hostActions = []) : step s = .next s := by
  unfold step
  rw [hs]

theorem step_of_reset (hs : s.hostActions = .assertReset :: rest) :
    step s = .next (resetUnit { s with hostActions := rest }) := step_cons hs

end

/-- Settles O6: a legal word's command, or the idle step. -/
theorem stepRunsTheDecodedCommand : Obligations.StepRunsTheDecodedCommand :=
  ⟨fun _ _ _ _ hs hw => step_of_decode_ok hs hw, fun _ => step_of_idle⟩

theorem decodeTableWord_eq_some {nbits w : Nat} {i : Instr} (h : decodeTableWord nbits w = some i) :
    decode (tableCommandWord nbits w) = .ok i := by
  unfold decodeTableWord at h
  cases hw : decode (tableCommandWord nbits w) with
  | ok j => rw [hw] at h; cases h; rfl
  | error e => rw [hw] at h; cases h

theorem decodeTableWord_eq_none {nbits w : Nat} (h : decodeTableWord nbits w = none) :
    ∃ e, decode (tableCommandWord nbits w) = .error e := by
  unfold decodeTableWord at h
  cases hw : decode (tableCommandWord nbits w) with
  | ok j => rw [hw] at h; cases h
  | error e => exact ⟨e, rfl⟩

/-- Settles O7: the placed word is the first action, and taking it off gives the state it was placed in. -/
theorem placedWordRunsNext : Obligations.PlacedWordRunsNext := by
  intro s nbits w
  have hplaced : (s.withFetchWord nbits w).hostActions = .present (tableCommandWord nbits w) :: s.hostActions := rfl
  refine ⟨fun i hi => step_of_decode_ok hplaced (decodeTableWord_eq_some hi), fun hnone => ?_⟩
  obtain ⟨e, he⟩ := decodeTableWord_eq_none hnone
  exact step_of_decode_error hplaced he

/-- Settles O9: the registers are cleared by `resetUnit`, and cleared registers read as right after reset. -/
theorem resetLeavesTheResetValues : Obligations.ResetLeavesTheResetValues := by
  refine ⟨fun s rest hs => ⟨_, step_of_reset hs, rfl, rfl, rfl, rfl, rfl, ?_⟩,
    fun c => ⟨rfl, rfl, rfl, rfl, rfl, rfl, readCsr_resetOf_status c⟩, rfl⟩
  exact (readCsr_of_cleared rfl ⟨rfl, rfl, rfl, rfl⟩ .status).trans (readCsr_resetOf_status s.config)

/-! ### The other agents -/

section
variable {s : State} {addr : Word64}

theorem hostWrite_of_unbacked (v : Byte) (h : s.config.memBytes ≤ addr.toNat) :
    hostWrite addr v s = .fault .unbackedAddress := if_pos h

theorem hostWrite_of_live (v : Byte) (h : addr.toNat < s.config.memBytes) (hl : s.inLiveBuffer addr.toNat) :
    hostWrite addr v s = .refused .liveBufferTouched := (if_neg (by omega)).trans (if_pos hl)

theorem hostWrite_of_free (v : Byte) (h : addr.toNat < s.config.memBytes) (hl : ¬ s.inLiveBuffer addr.toNat) :
    hostWrite addr v s = .next { s with mem := s.mem.poke addr.toNat v } := hostWrite_eq_next.2 ⟨h, hl, rfl⟩

theorem hostRead_of_unbacked (h : s.config.memBytes ≤ addr.toNat) :
    hostRead addr s = .fault .unbackedAddress := if_pos h

theorem hostRead_of_live (h : addr.toNat < s.config.memBytes) (hl : s.inLiveBuffer addr.toNat) :
    hostRead addr s = .refused .liveBufferTouched := (if_neg (by omega)).trans (if_pos hl)

theorem hostRead_of_free (h : addr.toNat < s.config.memBytes) (hl : ¬ s.inLiveBuffer addr.toNat) :
    hostRead addr s = .next s := hostRead_eq_next.2 ⟨h, hl, rfl⟩

end

/-- Settles O10: each access by the place of its address; taking the action off the list moves no buffer. -/
theorem otherAgentsKeepOffALiveBuffer : Obligations.OtherAgentsKeepOffALiveBuffer := by
  refine fun s rest addr v hm => ⟨fun hs => ?_, fun hs => ?_⟩
  · have hstep := step_cons hs
    exact ⟨fun h => hstep.trans (hostWrite_of_unbacked v h), fun h hl => hstep.trans (hostWrite_of_live v h hl),
      fun h hl => ⟨_, hstep.trans (hostWrite_of_free v h hl), rfl, Memory.peek_poke hm addr.toNat v⟩⟩
  · have hstep := step_cons hs
    exact ⟨fun h => hstep.trans (hostRead_of_unbacked h), fun h hl => hstep.trans (hostRead_of_live h hl),
      fun h hl => hstep.trans (hostRead_of_free h hl)⟩

end Sys2Proof.Machine
end

section
/-! SUPPORT. What `Does` says of each part of the state: the build parameters, the host's actions, the
filter's registers and `HIT` (10_state.md R24, R31, R32, R36). -/

namespace Sys2Proof.Machine

/-! ### The kernel's answer in the state after it -/

section
variable {s : State} {h : Word64} {r : KernelResult}

theorem inserted_of_kernelInsert (hp : kernelPre s.config s.base s.bucketCount)
    (hr : kernelInsert s.config s.mem s.base s.bucketCount h = some r) :
    reportStatus (accessMemory s r.mem r.events) r.status = s.inserted h := by
  rw [kernelInsert_of_pre s.mem h hp] at hr
  cases hr
  rfl

theorem queried_of_kernelContains (hp : kernelPre s.config s.base s.bucketCount)
    (hr : kernelContains s.config s.mem s.base s.bucketCount h = some r) :
    reportStatus (accessMemory s r.mem r.events) r.status = s.queried h := by
  rw [kernelContains_of_pre s.mem h hp] at hr
  cases hr
  rfl

/-- An `INSERT` that a live filter answers found its precondition. -/
theorem exec_insert_eq_next {t : State} (hs : s.unit = .live) (he : exec (.insert h) s = .next t) :
    kernelPre s.config s.base s.bucketCount ∧ t = s.inserted h := by
  by_cases hp : kernelPre s.config s.base s.bucketCount
  · rw [exec_insert_of_live h hs hp] at he
    exact ⟨hp, (Host.Outcome.next.inj he).symm⟩
  · rw [exec_insert_of_not_pre h hs hp] at he
    cases he

end

/-! ### What no command touches -/

theorem Does.config_eq {i : Instr} {s t : State} (h : Does i s t) : t.config = s.config := by
  cases h with
  | inFault | newInLive | insertInEmpty | containsInEmpty | releaseInEmpty | newGeometry | newFatal | newDone
    | insertDone | containsDone | releaseDone | rdcsrDone | rdcsrIllegal => rfl

theorem Does.hostActions_eq {i : Instr} {s t : State} (h : Does i s t) : t.hostActions = s.hostActions := by
  cases h with
  | inFault | newInLive | insertInEmpty | containsInEmpty | releaseInEmpty | newGeometry | newFatal | newDone
    | insertDone | containsDone | releaseDone | rdcsrDone | rdcsrIllegal => rfl

/-- Settles O38: a command by `Does.config_eq`; no other action has a way to the parameters. -/
theorem buildParametersNeverChange : Obligations.BuildParametersNeverChange := by
  intro s t h
  rcases step_does h with ⟨-, rfl⟩ | ⟨w, rest, e, -, -, rfl⟩ | ⟨w, rest, i, -, -, hd⟩ | ⟨rest, -, rfl⟩ |
    ⟨addr, v, rest, -, -, -, rfl⟩ | ⟨addr, rest, -, -, -, rfl⟩
  · rfl
  · rfl
  · exact hd.config_eq
  · rfl
  · rfl
  · rfl

/-- A step takes the first action off the list (R13). -/
theorem step_hostActions {s t : State} (h : step s = .next t) : t.hostActions = s.hostActions.tail := by
  rcases step_does h with ⟨hs, rfl⟩ | ⟨w, rest, e, hs, -, rfl⟩ | ⟨w, rest, i, hs, -, hd⟩ | ⟨rest, hs, rfl⟩ |
    ⟨addr, v, rest, hs, -, -, rfl⟩ | ⟨addr, rest, hs, -, -, rfl⟩
  · rw [hs]; rfl
  · rw [hs]; rfl
  · rw [hs]; exact hd.hostActions_eq
  · rw [hs]; rfl
  · rw [hs]; rfl
  · rw [hs]; rfl

theorem mem_hostActions_of_step {s t : State} (h : step s = .next t) {act : HostAction} (ha : act ∈ t.hostActions) :
    act ∈ s.hostActions := List.mem_of_mem_tail (step_hostActions h ▸ ha)

/-! ### The filter's registers and `HIT` -/

/-- The three geometry registers are the same. -/
abbrev State.SameGeometry (s t : State) : Prop :=
  t.base = s.base ∧ t.byteLength = s.byteLength ∧ t.bucketCount = s.bucketCount

/-- What a command does to the filter as a whole: nothing, make one, end it, or look a hash up in it. -/
inductive FilterEffect (i : Instr) (s t : State) : Prop where
  | untouched (hg : s.SameGeometry t) (hhit : t.hit = s.hit) (hu : t.unit = s.unit ∨ t.unit = .fault)
  | opened (hs : s.unit = .empty) (ht : t.unit = .live) (hhit : t.hit = false)
  | closed (hi : i = .release) (hs : s.unit = .live) (ht : t.unit = .empty) (hhit : t.hit = false)
  | lookedUp (hi : ∃ h, i = .insert h ∨ i = .contains h) (hs : s.unit = .live) (ht : t.unit = .live)
    (hg : s.SameGeometry t)

theorem Does.filterEffect {i : Instr} {s t : State} (h : Does i s t) : FilterEffect i s t := by
  cases h with
  | newFatal => exact .untouched ⟨rfl, rfl, rfl⟩ rfl (.inr rfl)
  | newDone hs => exact .opened hs rfl rfl
  | insertDone hs => exact .lookedUp ⟨_, .inl rfl⟩ hs hs ⟨rfl, rfl, rfl⟩
  | containsDone hs => exact .lookedUp ⟨_, .inr rfl⟩ hs hs ⟨rfl, rfl, rfl⟩
  | releaseDone hs => exact .closed rfl hs rfl rfl
  | inFault | newInLive | insertInEmpty | containsInEmpty | releaseInEmpty | newGeometry | rdcsrDone
    | rdcsrIllegal => exact .untouched ⟨rfl, rfl, rfl⟩ rfl (.inl rfl)

/-- A step leaves the filter's registers and `HIT`, is a reset, or has the effect of its command. -/
theorem step_filterEffect {s t : State} (h : step s = .next t) :
    (s.SameGeometry t ∧ t.hit = s.hit ∧ t.unit = s.unit) ∨
    (∃ rest, s.hostActions = .assertReset :: rest ∧ t.hit = false) ∨
    ∃ w rest i, s.hostActions = .present w :: rest ∧ decode w = .ok i ∧
      FilterEffect i { s with hostActions := rest } t := by
  rcases step_does h with ⟨-, rfl⟩ | ⟨w, rest, e, -, -, rfl⟩ | ⟨w, rest, i, hs, hw, hd⟩ | ⟨rest, hs, rfl⟩ |
    ⟨addr, v, rest, -, -, -, rfl⟩ | ⟨addr, rest, -, -, -, rfl⟩
  · exact .inl ⟨⟨rfl, rfl, rfl⟩, rfl, rfl⟩
  · exact .inl ⟨⟨rfl, rfl, rfl⟩, rfl, rfl⟩
  · exact .inr (.inr ⟨w, rest, i, hs, hw, hd.filterEffect⟩)
  · exact .inr (.inl ⟨rest, hs, rfl⟩)
  · exact .inl ⟨⟨rfl, rfl, rfl⟩, rfl, rfl⟩
  · exact .inl ⟨⟨rfl, rfl, rfl⟩, rfl, rfl⟩

/-- Settles O37: of the effects of a command, opening and closing are the two transitions of the statement. -/
theorem geometryRegistersAreFixedForLife : Obligations.GeometryRegistersAreFixedForLife := by
  intro s t h
  rcases step_filterEffect h with ⟨hg, -, -⟩ | ⟨rest, hs, -⟩ | ⟨w, rest, i, -, -, heffect⟩
  · exact .inl hg
  · exact .inr (.inr (.inr ⟨rest, hs⟩))
  · cases heffect with
    | untouched hg => exact .inl hg
    | opened hs ht => exact .inr (.inl ⟨hs, ht⟩)
    | closed hi hs ht => exact .inr (.inr (.inl ⟨hs, ht⟩))
    | lookedUp hi hs ht hg => exact .inl hg

/-- `INSERT` and `CONTAINS` of a live filter respond with the value they leave in `HIT` (R32). -/
theorem Does.response_of_lookup {i : Instr} {s t : State} (h : Does i s t) (hs : s.unit = .live)
    (hi : ∃ x, i = .insert x ∨ i = .contains x) :
    t.responses = s.responses ++ [{ code := .ok, data := boolData t.hit }] := by
  obtain ⟨x, rfl | rfl⟩ := hi
  · cases h with
    | inFault _ hf => simp [hs] at hf
    | insertInEmpty he => simp [hs] at he
    | insertDone => rfl
  · cases h with
    | inFault _ hf => simp [hs] at hf
    | containsInEmpty he => simp [hs] at he
    | containsDone => rfl

/-- `HIT` is 0 where a step makes a filter or ends one. -/
theorem step_hit_of_unit_change {s t : State} (h : step s = .next t)
    (hu : s.unit = .empty ∧ t.unit = .live ∨ s.unit = .live ∧ t.unit = .empty) : t.hit = false := by
  rcases step_filterEffect h with ⟨-, -, hsame⟩ | ⟨rest, -, hhit⟩ | ⟨w, rest, i, -, -, heffect⟩
  · rcases hu with ⟨hs, ht⟩ | ⟨hs, ht⟩ <;> simp [hs, ht] at hsame
  · exact hhit
  · cases heffect with
    | untouched hg _ hsame => rcases hu with ⟨hs, ht⟩ | ⟨hs, ht⟩ <;> simp [hs, ht] at hsame
    | opened _ _ hhit => exact hhit
    | closed _ _ _ hhit => exact hhit
    | lookedUp _ hlive hlive' =>
      rcases hu with ⟨hs, -⟩ | ⟨-, ht⟩
      · exact absurd (hlive.symm.trans hs) (by decide)
      · exact absurd (hlive'.symm.trans ht) (by decide)

/-- Settles O36: the response by the command's own case, the rest by the effects of a step on the filter. -/
theorem hitHoldsTheLastAnswer : Obligations.HitHoldsTheLastAnswer := by
  refine fun s t h => ⟨fun w rest x hact hs hw => ?_, fun hs ht => step_hit_of_unit_change h (.inl ⟨hs, ht⟩),
    fun hs ht => step_hit_of_unit_change h (.inr ⟨hs, ht⟩), fun rest hact => ?_, fun hne => ?_⟩
  · rcases hw with hw | hw
    · exact (exec_does ((step_of_decode_ok hact hw).symm.trans h)).response_of_lookup hs ⟨x, .inl rfl⟩
    · exact (exec_does ((step_of_decode_ok hact hw).symm.trans h)).response_of_lookup hs ⟨x, .inr rfl⟩
  · rw [step_of_reset hact] at h
    cases h
    rfl
  · rcases step_filterEffect h with ⟨-, hhit, -⟩ | ⟨rest, hact, -⟩ | ⟨w, rest, i, hact, hw, heffect⟩
    · exact absurd hhit hne
    · exact .inl ⟨rest, hact⟩
    · cases heffect with
      | untouched _ hhit => exact absurd hhit hne
      | opened hs ht => exact .inr (.inl ⟨hs, ht⟩)
      | closed hi hs => exact .inr (.inr ⟨hs, w, rest, hact, .inl (hi ▸ hw)⟩)
      | lookedUp hi hs =>
        obtain ⟨x, rfl | rfl⟩ := hi
        · exact .inr (.inr ⟨hs, w, rest, hact, .inr ⟨x, .inl hw⟩⟩)
        · exact .inr (.inr ⟨hs, w, rest, hact, .inr ⟨x, .inr hw⟩⟩)

end Sys2Proof.Machine
end

section
/-! SUPPORT. The invariant (10_state.md R33, 20_memory.md R50): kept by every step, true after reset, and enough for
every word to be answered (43_filter_commands.md R140). -/

namespace Sys2Proof.Machine

/-! ### The parts of the invariant -/

section
variable {s : State}

theorem wf_of_inv (hinv : s.Inv) : s.mem.wf := by
  obtain ⟨-, ⟨hm, -⟩, -, -⟩ := hinv
  exact hm

theorem liveRegisters_of_inv (hinv : s.Inv) (hs : s.unit = .live) : s.LiveRegisters := by
  obtain ⟨-, -, hlive, -⟩ := hinv
  exact hlive hs

theorem kernelPre_of_inv (hinv : s.Inv) (hs : s.unit = .live) : kernelPre s.config s.base s.bucketCount :=
  liveRegisters_kernelPre (liveRegisters_of_inv hinv hs)

end

/-! ### Memory lists backed addresses only -/

theorem memoryGood_poke {s : State} (hm : s.MemoryGood) {addr : Nat} (hbacked : addr < s.config.memBytes) (v : Byte) :
    ({ s with mem := s.mem.poke addr v } : State).MemoryGood := by
  refine ⟨Memory.poke_wf hm.1 addr v, fun x hx => ?_⟩
  rcases Memory.mem_poke hx with hx | rfl
  · exact hm.2 x hx
  · exact hbacked

theorem memoryGood_zeroedFilter {s : State} (hm : s.MemoryGood) (base : Word64) (bytes : Nat) :
    (zeroedFilter s base bytes).MemoryGood :=
  ⟨Memory.zeroFill_wf hm.1 base.toNat bytes, fun x hx => hm.2 x (Memory.mem_zeroFill hx)⟩

/-- The selected bucket is aligned and lies in the buffer, which is backed (R56, R57). -/
theorem bucketOf_backed {s : State} (h : Word64) (hp : kernelPre s.config s.base s.bucketCount) :
    s.bucketOf h % 32 = 0 ∧ s.base.toNat ≤ s.bucketOf h ∧
      s.bucketOf h + 32 ≤ s.base.toNat + 32 * s.bucketCount.toNat ∧
      s.base.toNat + 32 * s.bucketCount.toNat ≤ s.config.memBytes := bucketAddr_backed h hp

theorem memoryGood_inserted {s : State} (hm : s.MemoryGood) (h : Word64)
    (hp : kernelPre s.config s.base s.bucketCount) : (s.inserted h).MemoryGood := by
  obtain ⟨-, -, hend, hbacked⟩ := bucketOf_backed h hp
  refine ⟨bucketStored_wf _ hm.1 _ h, fun x hx => ?_⟩
  rcases mem_bucketStored _ hx with hx | ⟨-, hx⟩
  · exact hm.2 x hx
  · exact hx.trans_le (hend.trans hbacked)

/-! ### Every step keeps the invariant -/

theorem Does.inv {i : Instr} {s t : State} (h : Does i s t) (hinv : s.Inv) : t.Inv := by
  obtain ⟨hvalid, hm, hlive, hclear⟩ := hinv
  cases h with
  | newFatal hs => exact ⟨hvalid, hm, by simp, fun _ => hclear (by simp [hs])⟩
  | newDone hs hg ha =>
    exact ⟨hvalid, memoryGood_zeroedFilter hm _ _, fun _ => zeroedFilter_liveRegisters hg ha, by simp⟩
  | insertDone hs hp hr =>
    rw [inserted_of_kernelInsert hp hr]
    exact ⟨hvalid, memoryGood_inserted hm _ hp, hlive, fun hne => absurd hs hne⟩
  | containsDone hs hp hr =>
    rw [queried_of_kernelContains hp hr]
    exact ⟨hvalid, hm, hlive, fun hne => absurd hs hne⟩
  | releaseDone hs => exact ⟨hvalid, hm, by simp, fun _ => ⟨rfl, rfl, rfl, rfl⟩⟩
  | inFault | newInLive | insertInEmpty | containsInEmpty | releaseInEmpty | newGeometry | rdcsrDone
    | rdcsrIllegal => exact ⟨hvalid, hm, hlive, hclear⟩

/-- Settles O39: a command by `Does.inv`, reset by its cleared registers, another agent's write by the one byte. -/
theorem invariantIsKeptByEveryStep : Obligations.InvariantIsKeptByEveryStep := by
  intro s t hinv h
  rcases step_does h with ⟨-, rfl⟩ | ⟨w, rest, e, -, -, rfl⟩ | ⟨w, rest, i, -, -, hd⟩ | ⟨rest, -, rfl⟩ |
    ⟨addr, v, rest, -, hbacked, -, rfl⟩ | ⟨addr, rest, -, -, -, rfl⟩
  · exact hinv
  · exact hinv
  · exact hd.inv hinv
  · obtain ⟨hvalid, hm, -, -⟩ := hinv
    exact ⟨hvalid, hm, by simp, fun _ => ⟨rfl, rfl, rfl, rfl⟩⟩
  · obtain ⟨hvalid, hm, hlive, hclear⟩ := hinv
    exact ⟨hvalid, memoryGood_poke hm hbacked v, hlive, hclear⟩
  · exact hinv

theorem inv_resetOf {c : Config} (hc : c.Valid) : (State.resetOf c).Inv :=
  ⟨hc, ⟨Memory.wf_nil, by simp⟩, by simp, fun _ => ⟨rfl, rfl, rfl, rfl⟩⟩

theorem standard_valid : Config.standard.Valid := by decide

/-- Settles O40: after reset memory is empty and the registers are cleared; the parameters of `Config.standard` are
checked one by one. -/
theorem invariantHoldsAtReset : Obligations.InvariantHoldsAtReset :=
  ⟨fun _ => inv_resetOf, standard_valid, inv_resetOf standard_valid⟩

/-! ### Every word is answered (R140) -/

theorem exec_new_answers {s : State} (hs : s.unit = .empty) (bitsPerKey expectedKeys : BitVec 32) (base : Word64) :
    ∃ t, exec (.new bitsPerKey expectedKeys base) s = .next t := by
  by_cases hg : geometryOK (geometryBytes bitsPerKey expectedKeys)
  · by_cases ha : allocOK s.config base (geometryBytes bitsPerKey expectedKeys)
    · exact ⟨_, exec_new_of_usable hs hg ha⟩
    · exact ⟨_, exec_new_of_unallocatable hs hg ha⟩
  · exact ⟨_, exec_new_of_unusable hs hg⟩

theorem exec_rdcsr_answers (s : State) (n : Word64) : ∃ t, exec (.rdcsr n) s = .next t := by
  cases hr : csrOfNumber n with
  | some r => exact ⟨_, exec_rdcsr_of_number s hr⟩
  | none => exact ⟨_, exec_rdcsr_of_not_number s hr⟩

/-- The ways a command is taken (R140): `RDCSR` always; any other in `FAULT`, in a wrong state, or in its own. -/
theorem admission_cases (i : Instr) (s : State) :
    (∃ n, i = .rdcsr n) ∨ ((∀ n, i ≠ .rdcsr n) ∧ s.unit = .fault) ∨
      (∃ u, requiredUnit i = some u ∧ s.unit ≠ .fault ∧ s.unit ≠ u) ∨ requiredUnit i = some s.unit := by
  by_cases hrdcsr : ∃ n, i = .rdcsr n
  · exact .inl hrdcsr
  have hne : ∀ n, i ≠ .rdcsr n := fun n hn => hrdcsr ⟨n, hn⟩
  obtain ⟨u, hu⟩ := requiredUnit_of_ne_rdcsr hne
  by_cases hf : s.unit = .fault
  · exact .inr (.inl ⟨hne, hf⟩)
  by_cases hs : s.unit = u
  · exact .inr (.inr (.inr (hs ▸ hu)))
  · exact .inr (.inr (.inl ⟨u, hu, hf, hs⟩))

/-- A live filter's registers give the kernels their precondition, the one thing a command can lack. -/
theorem exec_answers {s : State} (hinv : s.Inv) (i : Instr) : ∃ t, exec i s = .next t := by
  rcases admission_cases i s with ⟨n, rfl⟩ | ⟨hne, hf⟩ | ⟨u, hu, hf, hs⟩ | hu
  · exact exec_rdcsr_answers s n
  · exact ⟨_, exec_of_fault hne hf⟩
  · exact ⟨_, exec_of_wrong_unit hu hf hs⟩
  · cases i with
    | rdcsr n => cases hu
    | new bitsPerKey expectedKeys base =>
      exact exec_new_answers (Option.some.inj hu).symm bitsPerKey expectedKeys base
    | insert h =>
      have hs : s.unit = .live := (Option.some.inj hu).symm
      exact ⟨_, exec_insert_of_live h hs (kernelPre_of_inv hinv hs)⟩
    | contains h =>
      have hs : s.unit = .live := (Option.some.inj hu).symm
      exact ⟨_, exec_contains_of_live h hs (kernelPre_of_inv hinv hs)⟩
    | release => exact ⟨_, exec_release_of_live (Option.some.inj hu).symm⟩

/-- Settles O41: an illegal word is answered as such; a legal one's command answers, with the one response of
`Does.response_code`. -/
theorem everyWordIsAnsweredOnce : Obligations.EveryWordIsAnsweredOnce := by
  intro s w rest hinv hs
  cases hw : decode w with
  | error e => exact ⟨_, _, step_of_decode_error hs hw, rfl, rfl⟩
  | ok i =>
    obtain ⟨t, ht⟩ := exec_answers (s := { s with hostActions := rest }) hinv i
    obtain ⟨data, hr⟩ := (exec_does ht).response_code (wellFormed_of_decodesTo (decode_eq_ok.1 hw))
    exact ⟨t, _, (step_of_decode_ok hs hw).trans ht, hr, (exec_does ht).hostActions_eq⟩

end Sys2Proof.Machine
end

section
/-! SUPPORT. The unit's accesses (20_memory.md R56, R57): each is aligned and inside the live buffer. -/

namespace Sys2Proof.Machine

/-- The access is naturally aligned and lies inside the live buffer of `t`, which is backed. -/
def MemEvent.WithinFilter (t : State) (e : MemEvent) : Prop :=
  e.aligned ∧ t.unit = .live ∧ t.base.toNat ≤ e.range.1 ∧
    e.range.1 + e.range.2 ≤ t.base.toNat + t.byteLength.toNat ∧
    t.base.toNat + t.byteLength.toNat ≤ t.config.memBytes

/-- The bucket of a hash lies in the live buffer, whose end the memory backs. -/
theorem bucketOf_within {s : State} (h : Word64) (hr : s.LiveRegisters) :
    s.bucketOf h % 32 = 0 ∧ s.base.toNat ≤ s.bucketOf h ∧
      s.bucketOf h + 32 ≤ s.base.toNat + s.byteLength.toNat ∧
      s.base.toNat + s.byteLength.toNat ≤ s.config.memBytes := by
  obtain ⟨halign, hlo, hhi, hbacked⟩ := bucketOf_backed h (liveRegisters_kernelPre hr)
  obtain ⟨-, -, -, hlength, -, -, -⟩ := hr
  rw [hlength]
  exact ⟨halign, hlo, hhi, hbacked⟩

section
variable {s : State} {e : MemEvent}

theorem withinFilter_of_insertAccesses (h : Word64) (hs : s.unit = .live) (hr : s.LiveRegisters)
    (he : e ∈ insertAccesses s.config.backend (s.bucketOf h)) : e.WithinFilter s := by
  obtain ⟨halign, hin⟩ := bucketOf_within h hr
  have hhalf : s.bucketOf h % 16 = 0 := by omega
  cases hb : s.config.backend with
  | v256 =>
    simp only [hb, insertAccesses, List.mem_cons, List.not_mem_nil, or_false] at he
    rcases he with rfl | rfl
    · exact ⟨halign, hs, hin⟩
    · exact ⟨halign, hs, hin⟩
  | v128p =>
    simp only [hb, insertAccesses, List.mem_cons, List.not_mem_nil, or_false] at he
    rcases he with rfl | rfl
    · exact ⟨hhalf, hs, hin⟩
    · exact ⟨hhalf, hs, hin⟩

/-- The accesses of a `CONTAINS` are the reads of an `INSERT` (R59). -/
theorem mem_insertAccesses_of_contains {b : Backend} {addr : Nat} (he : e ∈ containsAccesses b addr) :
    e ∈ insertAccesses b addr := by
  cases b with
  | v256 | v128p => exact List.mem_singleton.1 he ▸ .head _

/-- The zero-fill of a `NEW` is the whole buffer, from the start of a line. -/
theorem withinFilter_of_zeroFill {bitsPerKey expectedKeys : BitVec 32} {base : Word64}
    (ha : allocOK s.config base (geometryBytes bitsPerKey expectedKeys)) :
    (MemEvent.zeroFill base.toNat (geometryBytes bitsPerKey expectedKeys)).WithinFilter
      (zeroedFilter s base (geometryBytes bitsPerKey expectedKeys)) := by
  obtain ⟨halign, hbacked⟩ := ha
  have hlength : (zeroedFilter s base (geometryBytes bitsPerKey expectedKeys)).byteLength.toNat =
      geometryBytes bitsPerKey expectedKeys := ofNat_geometryBytes_toNat bitsPerKey expectedKeys
  refine ⟨halign, rfl, le_rfl, ?_, ?_⟩
  · rw [hlength]
    exact le_rfl
  · rw [hlength]
    exact hbacked

end

/-- The accesses of a command are those of its kernel or its zero-fill; every other outcome makes none. -/
theorem Does.accesses_within {i : Instr} {s t : State} (h : Does i s t) (hinv : s.Inv) :
    ∃ events, t.memPort = s.memPort ++ events ∧ ∀ e ∈ events, e.WithinFilter t := by
  cases h with
  | newDone hs hg ha =>
    refine ⟨_, rfl, fun e he => ?_⟩
    rw [List.mem_singleton.1 he]
    exact withinFilter_of_zeroFill ha
  | insertDone hs hp hr =>
    have hregisters := liveRegisters_of_inv hinv hs
    rw [inserted_of_kernelInsert hp hr]
    exact ⟨_, rfl, fun e he => withinFilter_of_insertAccesses _ hs hregisters he⟩
  | containsDone hs hp hr =>
    have hregisters := liveRegisters_of_inv hinv hs
    rw [queried_of_kernelContains hp hr]
    exact ⟨_, rfl, fun e he => withinFilter_of_insertAccesses _ hs hregisters (mem_insertAccesses_of_contains he)⟩
  | inFault | newInLive | insertInEmpty | containsInEmpty | releaseInEmpty | newGeometry | newFatal | releaseDone
    | rdcsrDone | rdcsrIllegal => exact ⟨[], (List.append_nil _).symm, by simp⟩

/-- Settles O42: only a command makes accesses, those of `Does.accesses_within`. -/
theorem accessesStayInTheLiveBuffer : Obligations.AccessesStayInTheLiveBuffer := by
  intro s t hinv h
  have hnone : t.memPort = s.memPort →
      ∃ events, t.memPort = s.memPort ++ events ∧ ∀ e ∈ events, e.WithinFilter t := fun hport =>
    ⟨[], hport.trans (List.append_nil _).symm, by simp⟩
  rcases step_does h with ⟨-, rfl⟩ | ⟨w, rest, e, -, -, rfl⟩ | ⟨w, rest, i, -, -, hd⟩ | ⟨rest, -, rfl⟩ |
    ⟨addr, v, rest, -, -, -, rfl⟩ | ⟨addr, rest, -, -, -, rfl⟩
  · exact hnone rfl
  · exact hnone rfl
  · exact hd.accesses_within hinv
  · exact hnone rfl
  · exact hnone rfl
  · exact hnone rfl

end Sys2Proof.Machine
end

section
/-! SUPPORT. The bits of a live buffer only go up (10_state.md R35), and what a hash that was inserted, or that shares
the bucket and the mask of one, is answered (42_kernel_backends.md R134, 43_filter_commands.md R149). -/

namespace Sys2Proof.Machine

/-! ### The test of a bucket, as its bits change -/

theorem Memory.load_eq_zero {w n addr : Nat} {m : Memory} (h : ∀ j, j < n → m.peek (addr + j) = 0) :
    m.load w addr n = 0 := by
  induction n with
  | zero => rfl
  | succ n ih =>
    rw [Memory.load, ih fun j hj => h j (by omega), h n (by omega)]
    simp

section
variable {c : Config} {m m' : Memory} {addr : Nat} {h h' : Word64}

theorem bucketHolds_mono (hbits : ∀ j, j < 32 → ∀ i, (m.peek (addr + j)).getLsbD i = true →
    (m'.peek (addr + j)).getLsbD i = true) (hh : bucketHolds c m addr h = true) : bucketHolds c m' addr h = true := by
  rw [bucketHolds_iff, and_eq_right_iff_bits] at hh ⊢
  intro p hp
  have hbit := hh p hp
  simp only [Memory.getLsbD_load, Bool.and_eq_true, decide_eq_true_eq] at hbit ⊢
  obtain ⟨hin, hset⟩ := hbit
  exact ⟨hin, hbits _ (by omega) _ hset⟩

theorem bucketHolds_congr (hlo : hashLo h' = hashLo h) : bucketHolds c m addr h' = bucketHolds c m addr h := by
  rw [bucketHolds, mask_congr c hlo, bucketHolds]

theorem bucketHolds_bucketStored (hm : m.wf) : bucketHolds c (bucketStored c m addr h) addr h = true := by
  rw [bucketHolds_iff, load_bucketStored c hm, and_eq_right_iff_bits]
  intro p hp
  rw [BitVec.getLsbD_or, hp, Bool.or_true]

/-- ORing bits that are set changes nothing (R134 (c)). -/
theorem bucketStored_of_bucketHolds (hm : m.wf) (hh : bucketHolds c m addr h = true) :
    bucketStored c m addr h = m := by
  have hor : m.load 256 addr 32 ||| mask c h = m.load 256 addr 32 := by
    rw [bucketHolds_iff, and_eq_right_iff_bits] at hh
    apply BitVec.eq_of_getLsbD_eq
    intro p _
    rw [BitVec.getLsbD_or]
    cases hp : (mask c h).getLsbD p with
    | false => exact Bool.or_false _
    | true => rw [hh p hp]; rfl
  unfold bucketStored
  rw [hor]
  exact Memory.store_load hm addr (by decide)

/-- A mask has bits, so it is in no bucket of zeros. -/
theorem bucketHolds_of_zero (hzero : ∀ j, j < 32 → m.peek (addr + j) = 0) : bucketHolds c m addr h = false := by
  rw [← Bool.not_eq_true, bucketHolds_iff, Memory.load_eq_zero hzero]
  exact fun hmask => mask_ne_zero c h (hmask.symm.trans BitVec.zero_and)

end

/-! ### What `INSERT` and `CONTAINS` answer, by `State.holds` -/

section
variable {s : State} {h : Word64} {b : Bool}

theorem exec_contains_of_holds (hs : s.unit = .live) (hp : kernelPre s.config s.base s.bucketCount)
    (hh : s.holds h = b) : ∃ t, exec (.contains h) s = .next t ∧ t.hit = b ∧ t.mem = s.mem ∧
      t.responses = s.responses ++ [{ code := .ok, data := boolData b }] := by
  subst hh
  exact ⟨_, exec_contains_of_live h hs hp, rfl, rfl, rfl⟩

theorem exec_insert_of_holds (hs : s.unit = .live) (hp : kernelPre s.config s.base s.bucketCount)
    (hh : s.holds h = b) : ∃ t, exec (.insert h) s = .next t ∧ t.hit = b ∧ t.mem = s.memInserted h ∧
      t.responses = s.responses ++ [{ code := .ok, data := boolData b }] := by
  subst hh
  exact ⟨_, exec_insert_of_live h hs hp, rfl, rfl, rfl⟩

end

theorem inserted_holds {s : State} (hm : s.mem.wf) (h : Word64) : (s.inserted h).holds h = true :=
  bucketHolds_bucketStored hm

/-- A hash of the same bucket and the same `lo` is not told apart (R149 (d)). -/
theorem holds_congr {s : State} {h h' : Word64} (hindex : bucketIndex h' s.bucketCount = bucketIndex h s.bucketCount)
    (hlo : hashLo h' = hashLo h) : s.holds h' = s.holds h := by
  have hbucket : s.bucketOf h' = s.bucketOf h := congrArg (bucketAddr s.base) hindex
  rw [State.holds, hbucket, bucketHolds_congr hlo, State.holds]

/-- Settles O45: the first `INSERT` leaves the hash in its bucket; the second finds it and stores what is there. -/
theorem secondInsertFindsTheFirst : Obligations.SecondInsertFindsTheFirst := by
  intro s s1 h hs hm he
  obtain ⟨hp, rfl⟩ := exec_insert_eq_next hs he
  obtain ⟨t, ht, hhit, hmem, hresp⟩ := exec_insert_of_holds (s := s.inserted h) hs hp (inserted_holds hm h)
  have hsame : (s.inserted h).memInserted h = (s.inserted h).mem :=
    bucketStored_of_bucketHolds (bucketStored_wf _ hm _ h) (inserted_holds hm h)
  exact ⟨t, ht, hmem.trans hsame, hhit, hresp⟩

/-- Settles O47: the two hashes are not told apart, and the inserted one is there. -/
theorem sharedBucketAndMaskAnswersOne : Obligations.SharedBucketAndMaskAnswersOne := by
  intro s s1 h h' hs hm he hindex hlo
  obtain ⟨hp, rfl⟩ := exec_insert_eq_next hs he
  have hholds : (s.inserted h).holds h' = true :=
    (holds_congr (s := s.inserted h) hindex hlo).trans (inserted_holds hm h)
  exact exec_contains_of_holds (s := s.inserted h) hs hp hholds

/-! ### A filter just made (R134 (d), (e)) -/

/-- A `NEW` that ends in `LIVE` found a usable geometry and region. -/
theorem exec_new_eq_next {s t : State} {bitsPerKey expectedKeys : BitVec 32} {base : Word64} (hs : s.unit = .empty)
    (he : exec (.new bitsPerKey expectedKeys base) s = .next t) (ht : t.unit = .live) :
    geometryOK (geometryBytes bitsPerKey expectedKeys) ∧ allocOK s.config base (geometryBytes bitsPerKey expectedKeys) ∧
      t = respond (zeroedFilter s base (geometryBytes bitsPerKey expectedKeys)) .ok
        (BitVec.ofNat 64 (geometryBytes bitsPerKey expectedKeys)) := by
  cases exec_does he with
  | newDone _ hg ha => exact ⟨hg, ha, rfl⟩
  | newFatal => cases ht
  | inFault | newInLive | newGeometry => simp [hs] at ht

theorem zeroedFilter_holds {s : State} {bitsPerKey expectedKeys : BitVec 32} {base : Word64} (h : Word64)
    (hg : geometryOK (geometryBytes bitsPerKey expectedKeys))
    (ha : allocOK s.config base (geometryBytes bitsPerKey expectedKeys)) :
    (zeroedFilter s base (geometryBytes bitsPerKey expectedKeys)).holds h = false := by
  obtain ⟨-, hlo, hhi, -⟩ := bucketOf_within h (zeroedFilter_liveRegisters hg ha)
  have hlength : (zeroedFilter s base (geometryBytes bitsPerKey expectedKeys)).byteLength.toNat =
      geometryBytes bitsPerKey expectedKeys := ofNat_geometryBytes_toNat bitsPerKey expectedKeys
  have hbase : (zeroedFilter s base (geometryBytes bitsPerKey expectedKeys)).base = base := rfl
  rw [hbase] at hlo hhi
  rw [hlength] at hhi
  exact bucketHolds_of_zero fun j hj => zeroedFilter_peek_inside s (by omega) (by omega)

/-- Settles O46: the buffer is zero, where no hash is found, and its registers give the kernels their precondition. -/
theorem freshFilterHoldsNothing : Obligations.FreshFilterHoldsNothing := by
  intro s t bitsPerKey expectedKeys base h hs he ht
  obtain ⟨hg, ha, rfl⟩ := exec_new_eq_next hs he ht
  have hp := liveRegisters_kernelPre (zeroedFilter_liveRegisters hg ha)
  have hnot := zeroedFilter_holds h hg ha
  constructor
  · obtain ⟨u, hu, hhit, -, hresp⟩ := exec_insert_of_holds (s := respond (zeroedFilter s base _) .ok _) ht hp hnot
    exact ⟨u, hu, hhit, hresp⟩
  · obtain ⟨u, hu, hhit, -, hresp⟩ := exec_contains_of_holds (s := respond (zeroedFilter s base _) .ok _) ht hp hnot
    exact ⟨u, hu, hhit, hresp⟩

/-! ### A filter while it lives (R35) -/

/-- An `INSERT` clears no bit anywhere. -/
theorem peek_inserted_mono {s : State} (hm : s.mem.wf) (h : Word64) {x i : Nat}
    (hbit : (s.mem.peek x).getLsbD i = true) : ((s.inserted h).mem.peek x).getLsbD i = true := by
  show ((bucketStored s.config s.mem (s.bucketOf h) h).peek x).getLsbD i = true
  by_cases hin : s.bucketOf h ≤ x ∧ x < s.bucketOf h + 32
  · obtain ⟨j, rfl⟩ := Nat.exists_eq_add_of_le hin.1
    rw [peek_bucketStored_inside s.config hm _ h (by omega), BitVec.getLsbD_or, hbit, Bool.true_or]
  · rw [peek_bucketStored_outside s.config hm _ h (by omega)]
    exact hbit

/-- A command of a live filter other than `RELEASE` keeps it, clears no bit, and stores only as an `INSERT`. -/
theorem Does.keeps_filter {i : Instr} {s t : State} (h : Does i s t) (hm : s.mem.wf) (hs : s.unit = .live)
    (hi : i ≠ .release) : t.unit = .live ∧ s.SameGeometry t ∧
      (∀ x i, (s.mem.peek x).getLsbD i = true → (t.mem.peek x).getLsbD i = true) ∧
      ((∀ x, i ≠ .insert x) → t.mem = s.mem) := by
  cases h with
  | insertDone _ hp hr =>
    rw [inserted_of_kernelInsert hp hr]
    exact ⟨hs, ⟨rfl, rfl, rfl⟩, fun _ _ => peek_inserted_mono hm _, fun hne => absurd rfl (hne _)⟩
  | containsDone _ hp hr =>
    rw [queried_of_kernelContains hp hr]
    exact ⟨hs, ⟨rfl, rfl, rfl⟩, fun _ _ hbit => hbit, fun _ => rfl⟩
  | newInLive | rdcsrDone | rdcsrIllegal => exact ⟨hs, ⟨rfl, rfl, rfl⟩, fun _ _ hbit => hbit, fun _ => rfl⟩
  | releaseDone => exact absurd rfl hi
  | inFault _ hu => simp [hs] at hu
  | insertInEmpty hu | containsInEmpty hu | releaseInEmpty hu | newGeometry hu | newFatal hu | newDone hu =>
    simp [hs] at hu

/-- Settles O43: a command by `Does.keeps_filter`; another agent's write is outside the buffer. -/
theorem bufferBitsOnlyGoUp : Obligations.BufferBitsOnlyGoUp := by
  intro s t act rest hinv hs hact hkeeps h
  have hm := wf_of_inv hinv
  cases act with
  | present w =>
    rcases step_present_does hact h with ⟨e, -, rfl⟩ | ⟨i, hw, hd⟩
    · exact ⟨hs, rfl, rfl, rfl, fun _ _ _ hbit => hbit, fun _ _ _ => rfl⟩
    · have hi : i ≠ .release := by rintro rfl; exact hkeeps hw
      obtain ⟨hu, ⟨hbase, hlength, hcount⟩, hbits, hsame⟩ := hd.keeps_filter hm hs hi
      refine ⟨hu, hbase, hlength, hcount, fun x _ => hbits x, fun hno x _ => ?_⟩
      rw [hsame fun y hy => hno ⟨w, y, rfl, hy ▸ hw⟩]
  | assertReset => exact hkeeps.elim
  | writeByte addr v =>
    obtain ⟨-, hfree, rfl⟩ := hostWrite_eq_next.1 ((step_cons hact).symm.trans h)
    have hsame : ∀ x, s.inLiveBuffer x → (s.mem.poke addr.toNat v).peek x = s.mem.peek x := fun x hx => by
      rw [Memory.peek_poke hm, if_neg (by rintro rfl; exact hfree hx)]
    exact ⟨hs, rfl, rfl, rfl, fun x hx i hbit => (hsame x hx).symm ▸ hbit, fun _ => hsame⟩
  | readByte addr =>
    obtain ⟨-, -, rfl⟩ := hostRead_eq_next.1 ((step_cons hact).symm.trans h)
    exact ⟨hs, rfl, rfl, rfl, fun _ _ _ hbit => hbit, fun _ _ _ => rfl⟩

/-! ### No false negatives (R134 (b)) -/

/-- What every step of a run keeps, a run of any length keeps. -/
theorem run_keeps {P : State → Prop} (hstep : ∀ s t, P s → step s = .next t → P t) {k : Nat} {s t : State} (hs : P s)
    (h : Sys2Proof.core.run k s = .next t) : P t := by
  induction k generalizing s with
  | zero => cases h; exact hs
  | succ k ih =>
    obtain ⟨u, hu, hrun⟩ := run_eq_next.1 h
    exact ih (hstep s u hs hu) hrun

/-- A live filter with the invariant that has the hash in its bucket, and no end of its life waiting. -/
structure State.Remembers (s : State) (h : Word64) : Prop where
  inv : s.Inv
  live : s.unit = .live
  holds : s.holds h = true
  lasting : ∀ act ∈ s.hostActions, act.keepsFilter

/-- The bytes of the hash's bucket are in the live buffer, so no step clears a bit of them. -/
theorem remembers_of_step {s t : State} {h : Word64} (hs : s.Remembers h) (hstep : step s = .next t) :
    t.Remembers h := by
  obtain ⟨hinv, hlive, hholds, hlasting⟩ := hs
  cases hact : s.hostActions with
  | nil =>
    rw [step_of_idle hact] at hstep
    cases hstep
    exact ⟨hinv, hlive, hholds, hlasting⟩
  | cons act rest =>
    have hkeeps : act.keepsFilter := hlasting act (hact ▸ List.mem_cons_self)
    obtain ⟨hu, hbase, -, hcount, hbits, -⟩ := bufferBitsOnlyGoUp s t act rest hinv hlive hact hkeeps hstep
    have hconfig : t.config = s.config := buildParametersNeverChange s t hstep
    have hbucket : t.bucketOf h = s.bucketOf h := by rw [State.bucketOf, hbase, hcount, State.bucketOf]
    obtain ⟨-, hlo, hhi, -⟩ := bucketOf_within h (liveRegisters_of_inv hinv hlive)
    refine ⟨invariantIsKeptByEveryStep s t hinv hstep, hu, ?_,
      fun a ha => hlasting a (mem_hostActions_of_step hstep ha)⟩
    rw [State.holds, hbucket, hconfig]
    exact bucketHolds_mono (fun j hj => hbits _ ⟨hlive, by omega, by omega⟩) hholds

/-- Settles O44: an `INSERT` makes the filter remember the hash, every step keeps that, and a `CONTAINS` finds it. -/
theorem noFalseNegatives : Obligations.NoFalseNegatives := by
  intro s s1 s2 h k hinv hs he hlasting hrun
  obtain ⟨hp, rfl⟩ := exec_insert_eq_next hs he
  have hfirst : (s.inserted h).Remembers h :=
    ⟨(exec_does he).inv hinv, hs, inserted_holds (wf_of_inv hinv) h, hlasting⟩
  obtain ⟨hinv2, hlive2, hholds2, -⟩ :=
    run_keeps (P := fun u => u.Remembers h) (fun _ _ => remembers_of_step) hfirst hrun
  obtain ⟨t, ht, hhit, -, hresp⟩ :=
    exec_contains_of_holds hlive2 (kernelPre_of_inv hinv2 hlive2) hholds2
  exact ⟨t, ht, hhit, hresp⟩

end Sys2Proof.Machine
end

section
/-! SUPPORT. Runs do not depend on the backend (00_scope.md R9, 42_kernel_backends.md R123): a step of a state and
a step of its `State.backendBlind` are seen alike, so states that are seen alike run alike. -/

namespace Sys2Proof.Machine

/-! ### Outcomes seen without the backend -/

/-- The outcome as it is seen on an unknown backend. -/
abbrev blindOutcome (o : Host.Outcome State Fault Refusal) : Host.Outcome State Fault Refusal :=
  viewOutcome State.backendBlind o

theorem blindOutcome_of_next {o o' : Host.Outcome State Fault Refusal} {t t' : State} (h : o = .next t)
    (h' : o' = .next t') (ht : t.backendBlind = t'.backendBlind) : blindOutcome o = blindOutcome o' := by
  rw [h, h']
  exact congrArg Host.Outcome.next ht

theorem blindOutcome_eq {o o' : Host.Outcome State Fault Refusal} (h : blindOutcome o = blindOutcome o') :
    (∃ u u', o = .next u ∧ o' = .next u' ∧ u.backendBlind = u'.backendBlind) ∨
      (∃ r, o = .fault r ∧ o' = .fault r) ∨ ∃ r, o = .refused r ∧ o' = .refused r := by
  cases o with
  | next u =>
    cases o' with
    | next u' => exact .inl ⟨u, u', rfl, rfl, Host.Outcome.next.inj h⟩
    | fault | refused => cases h
  | fault r =>
    cases o' with
    | fault r' => cases h; exact .inr (.inl ⟨r, rfl, rfl⟩)
    | next | refused => cases h
  | refused r =>
    cases o' with
    | refused r' => cases h; exact .inr (.inr ⟨r, rfl, rfl⟩)
    | next | fault => cases h

/-! ### Commands -/

section
variable {s : State}

/-- The mask is the salts' alone, so the filter's contents are too. -/
theorem backendBlind_holds (s : State) (h : Word64) : s.backendBlind.holds h = s.holds h := rfl

theorem backendBlind_memInserted (s : State) (h : Word64) : s.backendBlind.memInserted h = s.memInserted h := by
  unfold State.memInserted bucketStored
  rfl

theorem backendBlind_inserted (s : State) (h : Word64) :
    (s.inserted h).backendBlind = (s.backendBlind.inserted h).backendBlind := by
  unfold State.inserted
  rw [backendBlind_memInserted, backendBlind_holds]
  rfl

theorem backendBlind_queried (s : State) (h : Word64) :
    (s.queried h).backendBlind = (s.backendBlind.queried h).backendBlind := rfl

theorem exec_new_blind (hs : s.unit = .empty) (bitsPerKey expectedKeys : BitVec 32) (base : Word64) :
    blindOutcome (exec (.new bitsPerKey expectedKeys base) s) =
      blindOutcome (exec (.new bitsPerKey expectedKeys base) s.backendBlind) := by
  by_cases hg : geometryOK (geometryBytes bitsPerKey expectedKeys)
  · by_cases ha : allocOK s.config base (geometryBytes bitsPerKey expectedKeys)
    · exact blindOutcome_of_next (exec_new_of_usable hs hg ha) (exec_new_of_usable hs hg ha) rfl
    · exact blindOutcome_of_next (exec_new_of_unallocatable hs hg ha) (exec_new_of_unallocatable hs hg ha) rfl
  · exact blindOutcome_of_next (exec_new_of_unusable hs hg) (exec_new_of_unusable hs hg) rfl

theorem exec_insert_blind (hs : s.unit = .live) (h : Word64) :
    blindOutcome (exec (.insert h) s) = blindOutcome (exec (.insert h) s.backendBlind) := by
  by_cases hp : kernelPre s.config s.base s.bucketCount
  · exact blindOutcome_of_next (exec_insert_of_live h hs hp) (exec_insert_of_live h hs hp) (backendBlind_inserted s h)
  · rw [exec_insert_of_not_pre h hs hp, exec_insert_of_not_pre (s := s.backendBlind) h hs hp]

theorem exec_contains_blind (hs : s.unit = .live) (h : Word64) :
    blindOutcome (exec (.contains h) s) = blindOutcome (exec (.contains h) s.backendBlind) := by
  by_cases hp : kernelPre s.config s.base s.bucketCount
  · exact blindOutcome_of_next (exec_contains_of_live h hs hp) (exec_contains_of_live h hs hp)
      (backendBlind_queried s h)
  · rw [exec_contains_of_not_pre h hs hp, exec_contains_of_not_pre (s := s.backendBlind) h hs hp]

/-- Only the number 4 names `STATUS` (R24). -/
theorem csr_eq_four_of_status {n : Word64} (h : csrOfNumber n = some .status) : n = 4 := by
  unfold csrOfNumber at h
  split_ifs at h with _ _ _ _ h4
  · cases h
  · cases h
  · cases h
  · cases h
  · exact h4

/-- Every register but `STATUS` reads the same on either backend (R29). -/
theorem readCsr_backendBlind (s : State) {r : Csr} (h : r ≠ .status) : readCsr s.backendBlind r = readCsr s r := by
  cases r with
  | status => exact absurd rfl h
  | base | byteLength | bucketCount | align => rfl

theorem exec_rdcsr_blind {n : Word64} (hn : n ≠ 4) :
    blindOutcome (exec (.rdcsr n) s) = blindOutcome (exec (.rdcsr n) s.backendBlind) := by
  cases hr : csrOfNumber n with
  | some r =>
    have hstatus : r ≠ .status := by rintro rfl; exact hn (csr_eq_four_of_status hr)
    refine blindOutcome_of_next (exec_rdcsr_of_number s hr) (exec_rdcsr_of_number s.backendBlind hr) ?_
    rw [readCsr_backendBlind s hstatus]
    rfl
  | none =>
    exact blindOutcome_of_next (exec_rdcsr_of_not_number s hr) (exec_rdcsr_of_not_number s.backendBlind hr) rfl

end

/-- A command other than `RDCSR` of `STATUS` is seen alike on either backend. -/
theorem exec_blind {i : Instr} (hi : i ≠ .rdcsr 4) (s : State) :
    blindOutcome (exec i s) = blindOutcome (exec i s.backendBlind) := by
  rcases admission_cases i s with ⟨n, rfl⟩ | ⟨hne, hf⟩ | ⟨u, hu, hf, hs⟩ | hu
  · exact exec_rdcsr_blind fun hn => hi (congrArg Instr.rdcsr hn)
  · exact blindOutcome_of_next (exec_of_fault hne hf) (exec_of_fault hne hf) rfl
  · exact blindOutcome_of_next (exec_of_wrong_unit hu hf hs) (exec_of_wrong_unit hu hf hs) rfl
  · cases i with
    | rdcsr n => cases hu
    | new bitsPerKey expectedKeys base => exact exec_new_blind (Option.some.inj hu).symm bitsPerKey expectedKeys base
    | insert h => exact exec_insert_blind (Option.some.inj hu).symm h
    | contains h => exact exec_contains_blind (Option.some.inj hu).symm h
    | release =>
      have hs : s.unit = .live := (Option.some.inj hu).symm
      exact blindOutcome_of_next (exec_release_of_live hs) (exec_release_of_live hs) rfl

/-! ### Steps and runs -/

theorem hostWrite_blind (addr : Word64) (v : Byte) (s : State) :
    blindOutcome (hostWrite addr v s) = blindOutcome (hostWrite addr v s.backendBlind) := by
  by_cases hbacked : addr.toNat < s.config.memBytes
  · by_cases hl : s.inLiveBuffer addr.toNat
    · rw [hostWrite_of_live v hbacked hl, hostWrite_of_live (s := s.backendBlind) v hbacked hl]
    · exact blindOutcome_of_next (hostWrite_of_free v hbacked hl) (hostWrite_of_free v hbacked hl) rfl
  · rw [hostWrite_of_unbacked v (not_lt.1 hbacked), hostWrite_of_unbacked (s := s.backendBlind) v (not_lt.1 hbacked)]

theorem hostRead_blind (addr : Word64) (s : State) :
    blindOutcome (hostRead addr s) = blindOutcome (hostRead addr s.backendBlind) := by
  by_cases hbacked : addr.toNat < s.config.memBytes
  · by_cases hl : s.inLiveBuffer addr.toNat
    · rw [hostRead_of_live hbacked hl, hostRead_of_live (s := s.backendBlind) hbacked hl]
    · exact blindOutcome_of_next (hostRead_of_free hbacked hl) (hostRead_of_free hbacked hl) rfl
  · rw [hostRead_of_unbacked (not_lt.1 hbacked), hostRead_of_unbacked (s := s.backendBlind) (not_lt.1 hbacked)]

theorem runAction_blind {act : HostAction} (ha : act.blindToBackend) (s : State) :
    blindOutcome (runAction act s) = blindOutcome (runAction act s.backendBlind) := by
  cases act with
  | present w =>
    cases hw : decode w with
    | error e => exact blindOutcome_of_next (runWord_of_error s hw) (runWord_of_error s.backendBlind hw) rfl
    | ok i =>
      have hi : i ≠ .rdcsr 4 := by rintro rfl; exact ha hw
      have hexec := exec_blind hi s
      rwa [← runWord_of_ok s hw, ← runWord_of_ok s.backendBlind hw] at hexec
  | assertReset => rfl
  | writeByte addr v => exact hostWrite_blind addr v s
  | readByte addr => exact hostRead_blind addr s

theorem step_blind {s : State} (ha : ∀ act ∈ s.hostActions, act.blindToBackend) :
    blindOutcome (step s) = blindOutcome (step s.backendBlind) := by
  cases hact : s.hostActions with
  | nil => exact blindOutcome_of_next (step_of_idle hact) (step_of_idle hact) rfl
  | cons act rest =>
    have hfirst : act.blindToBackend := ha act (hact ▸ List.mem_cons_self)
    rw [step_cons hact, step_cons (s := s.backendBlind) hact]
    exact runAction_blind hfirst { s with hostActions := rest }

/-- States that are seen alike run alike, as far as no `STATUS` is read. -/
theorem run_blind {k : Nat} {s s' : State} (h : s.backendBlind = s'.backendBlind)
    (ha : ∀ act ∈ s.hostActions, act.blindToBackend) :
    blindOutcome (Sys2Proof.core.run k s) = blindOutcome (Sys2Proof.core.run k s') := by
  induction k generalizing s s' with
  | zero => exact congrArg Host.Outcome.next h
  | succ k ih =>
    have hactions : s.hostActions = s'.hostActions := by
      show s.backendBlind.hostActions = s'.backendBlind.hostActions
      rw [h]
    have hstep : blindOutcome (step s) = blindOutcome (step s') := by
      rw [step_blind ha, h]
      exact (step_blind (hactions ▸ ha)).symm
    rcases blindOutcome_eq hstep with ⟨u, u', hu, hu', hview⟩ | ⟨r, hr, hr'⟩ | ⟨r, hr, hr'⟩
    · rw [run_of_next k hu, run_of_next k hu']
      exact ih hview fun act hact => ha act (mem_hostActions_of_step hu hact)
    · rw [run_of_fault k hr, run_of_fault k hr']
    · rw [run_of_refused k hr, run_of_refused k hr']

/-- Settles O48: the state and the same state on another backend are seen alike. -/
theorem runsDoNotDependOnTheBackend : Obligations.RunsDoNotDependOnTheBackend := fun _ s b ha =>
  run_blind (s := s.withBackend b) (s' := s) rfl ha

end Sys2Proof.Machine
end

section
/-! SUPPORT. The unit reads no memory outside the live buffer, nor the old bytes that a `NEW` fills (20_memory.md R57,
10_state.md R38): memory exchanged for one that agrees on the live buffer gives the same step. -/

namespace Sys2Proof.Machine

/-- The state with its memory exchanged. -/
abbrev State.withMemory (s : State) (m' : Memory) : State := { s with mem := m' }

/-- `m'` reads as the memory of `s` on the live buffer of `s`. -/
def State.AgreesOnBuffer (s : State) (m' : Memory) : Prop := ∀ x, s.inLiveBuffer x → m'.peek x = s.mem.peek x

section
variable {s : State} {m' : Memory} {h : Word64}

/-- Without a live filter there is no buffer. -/
theorem agreesOnBuffer_of_ne_live (hs : s.unit ≠ .live) : s.AgreesOnBuffer m' := fun _ hx => absurd hx.1 hs

/-- The bucket of a hash is part of the live buffer. -/
theorem inLiveBuffer_of_bucket (hs : s.unit = .live) (hr : s.LiveRegisters) (h : Word64) {j : Nat} (hj : j < 32) :
    s.inLiveBuffer (s.bucketOf h + j) := by
  obtain ⟨-, hlo, hhi, -⟩ := bucketOf_within h hr
  exact ⟨hs, by omega, by omega⟩

theorem holds_of_agrees (hs : s.unit = .live) (hr : s.LiveRegisters) (hagree : s.AgreesOnBuffer m') :
    (s.withMemory m').holds h = s.holds h := by
  have hload : m'.load 256 (s.bucketOf h) 32 = s.mem.load 256 (s.bucketOf h) 32 :=
    Memory.load_congr 256 fun j hj => hagree _ (inLiveBuffer_of_bucket hs hr h hj)
  show bucketHolds s.config m' (s.bucketOf h) h = bucketHolds s.config s.mem (s.bucketOf h) h
  rw [bucketHolds, hload, bucketHolds]

/-- `INSERT` stores alike in both memories. -/
theorem memInserted_agrees (hm : s.mem.wf) (hm' : m'.wf) (hagree : s.AgreesOnBuffer m') :
    (s.inserted h).AgreesOnBuffer ((s.withMemory m').memInserted h) := by
  intro x hx
  show (bucketStored s.config m' (s.bucketOf h) h).peek x = (bucketStored s.config s.mem (s.bucketOf h) h).peek x
  have hsame : m'.peek x = s.mem.peek x := hagree x hx
  by_cases hin : s.bucketOf h ≤ x ∧ x < s.bucketOf h + 32
  · obtain ⟨j, rfl⟩ := Nat.exists_eq_add_of_le hin.1
    rw [peek_bucketStored_inside s.config hm _ h (by omega), peek_bucketStored_inside s.config hm' _ h (by omega),
      hsame]
  · rw [peek_bucketStored_outside s.config hm _ h (by omega), peek_bucketStored_outside s.config hm' _ h (by omega),
      hsame]

/-- What the unit stores, records and reports does not depend on the memory it had. -/
theorem reportStatus_withMemory (s : State) (m m' m'' : Memory) (events : List MemEvent) (b : Bool) :
    reportStatus (accessMemory (s.withMemory m') m'' events) b =
      (reportStatus (accessMemory s m events) b).withMemory m'' := rfl

theorem exec_insert_withMemory (h : Word64) (hs : s.unit = .live) (hr : s.LiveRegisters)
    (hagree : s.AgreesOnBuffer m') : exec (.insert h) (s.withMemory m') =
      .next ((s.inserted h).withMemory ((s.withMemory m').memInserted h)) := by
  rw [exec_insert_of_live (s := s.withMemory m') h hs (liveRegisters_kernelPre hr), State.inserted,
    holds_of_agrees hs hr hagree]
  exact congrArg Host.Outcome.next (reportStatus_withMemory s (s.memInserted h) m' _ _ _)

theorem exec_contains_withMemory (h : Word64) (hs : s.unit = .live) (hr : s.LiveRegisters)
    (hagree : s.AgreesOnBuffer m') : exec (.contains h) (s.withMemory m') =
      .next ((s.queried h).withMemory m') := by
  rw [exec_contains_of_live (s := s.withMemory m') h hs (liveRegisters_kernelPre hr), State.queried,
    holds_of_agrees hs hr hagree]
  exact congrArg Host.Outcome.next (reportStatus_withMemory s s.mem m' m' _ _)

/-- No register is a view of memory. -/
theorem readCsr_withMemory (s : State) (m' : Memory) (r : Csr) : readCsr (s.withMemory m') r = readCsr s r := by
  cases r with
  | base | byteLength | bucketCount | align | status => rfl

/-- The zero-fill makes any two memories agree on the buffer it opens. -/
theorem zeroedFilter_agrees (s : State) (m' : Memory) (bitsPerKey expectedKeys : BitVec 32) (base : Word64) :
    (zeroedFilter s base (geometryBytes bitsPerKey expectedKeys)).AgreesOnBuffer
      (m'.zeroFill base.toNat (geometryBytes bitsPerKey expectedKeys)) := by
  rintro x ⟨-, hlo, hhi⟩
  have hbase : (zeroedFilter s base (geometryBytes bitsPerKey expectedKeys)).base = base := rfl
  have hlength : (zeroedFilter s base (geometryBytes bitsPerKey expectedKeys)).byteLength.toNat =
      geometryBytes bitsPerKey expectedKeys := ofNat_geometryBytes_toNat bitsPerKey expectedKeys
  rw [hbase] at hlo hhi
  rw [hlength] at hhi
  rw [zeroedFilter_peek_inside s hlo hhi, Memory.peek_zeroFill, if_pos ⟨hlo, hhi⟩]

end

/-- A command on the exchanged memory answers the same but for memory, which agrees again. -/
theorem Does.withMemory {i : Instr} {s t : State} {m' : Memory} (h : Does i s t) (hinv : s.Inv) (hm' : m'.wf)
    (hagree : s.AgreesOnBuffer m') :
    ∃ m'', exec i (s.withMemory m') = .next (t.withMemory m'') ∧ t.AgreesOnBuffer m'' := by
  have hm := wf_of_inv hinv
  cases h with
  | inFault hi hs => exact ⟨m', exec_of_fault hi hs, hagree⟩
  | newInLive hs | insertInEmpty hs | containsInEmpty hs | releaseInEmpty hs =>
    exact ⟨m', exec_of_wrong_unit rfl (by simp [hs]) (by simp [hs]), hagree⟩
  | newGeometry hs hg => exact ⟨m', exec_new_of_unusable hs hg, hagree⟩
  | newFatal hs hg ha => exact ⟨m', exec_new_of_unallocatable hs hg ha, agreesOnBuffer_of_ne_live (by simp)⟩
  | newDone hs hg ha => exact ⟨_, exec_new_of_usable hs hg ha, zeroedFilter_agrees s m' _ _ _⟩
  | insertDone hs hp hr =>
    rw [inserted_of_kernelInsert hp hr]
    exact ⟨_, exec_insert_withMemory _ hs (liveRegisters_of_inv hinv hs) hagree, memInserted_agrees hm hm' hagree⟩
  | containsDone hs hp hr =>
    rw [queried_of_kernelContains hp hr]
    exact ⟨m', exec_contains_withMemory _ hs (liveRegisters_of_inv hinv hs) hagree, hagree⟩
  | releaseDone hs => exact ⟨m', exec_release_of_live hs, agreesOnBuffer_of_ne_live (by simp)⟩
  | rdcsrDone hr =>
    refine ⟨m', (exec_rdcsr_of_number _ hr).trans ?_, hagree⟩
    rw [readCsr_withMemory]
    rfl
  | rdcsrIllegal hr => exact ⟨m', exec_rdcsr_of_not_number _ hr, hagree⟩

/-- Settles O49: a command by `Does.withMemory`; after a reset there is no buffer; another agent writes the same byte to
both memories. -/
theorem memoryOutsideTheBufferIsNeverRead : Obligations.MemoryOutsideTheBufferIsNeverRead := by
  rintro s t m' hinv ⟨hm', -⟩ hagree h
  rcases step_does h with ⟨hs, rfl⟩ | ⟨w, rest, e, hs, hw, rfl⟩ | ⟨w, rest, i, hs, hw, hd⟩ | ⟨rest, hs, rfl⟩ |
    ⟨addr, v, rest, hs, hbacked, hfree, rfl⟩ | ⟨addr, rest, hs, hbacked, hfree, rfl⟩
  · exact ⟨m', step_of_idle (s := t.withMemory m') hs, hagree⟩
  · exact ⟨m', step_of_decode_error (s := s.withMemory m') hs hw, hagree⟩
  · obtain ⟨m'', hexec, hagree'⟩ := hd.withMemory hinv hm' hagree
    exact ⟨m'', (step_of_decode_ok (s := s.withMemory m') hs hw).trans hexec, hagree'⟩
  · exact ⟨m', step_of_reset (s := s.withMemory m') hs, agreesOnBuffer_of_ne_live (by simp)⟩
  · refine ⟨m'.poke addr.toNat v, (step_cons (s := s.withMemory m') hs).trans (hostWrite_of_free v hbacked hfree),
      fun x hx => ?_⟩
    rw [Memory.peek_poke hm', Memory.peek_poke (wf_of_inv hinv), hagree x hx]
  · exact ⟨m', (step_cons (s := s.withMemory m') hs).trans (hostRead_of_free hbacked hfree), hagree⟩

end Sys2Proof.Machine
end
